-- ==== Sys2Proof/Word.lean ====
section
/-! DEFINITION. The two bit-vector types of the device: the 32-bit register value (R12) and the buffer byte (R80). -/

namespace Sys2Proof

/-- A register value or a command word: every register is 32 bits wide (00_scope.md R12). What the spec calls a "word"
(1, 2 or 4 bytes of the buffer, R8) is a natural number below `R` in this model, as in the spec's pseudocode (R15). -/
abbrev Word32 := BitVec 32

/-- One byte of the buffer memory (20_memory.md R80). -/
abbrev Byte := BitVec 8

end Sys2Proof
end

