-- ==== Sys2Proof/Config.lean ====
section
/-! DEFINITION. What an implementation fixes, and the free values: constants with no body, so that no proof can lean on
a value of theirs (log entries 2, 3, 4 and 10). -/

namespace Sys2Proof

/-- What a free byte is drawn for. Two draws of one event for two purposes are two free bytes: "A byte that lies in
two overlapping input regions is read once per region" (20_memory.md R86). -/
inductive DrawSource where
  | src       -- a byte of the source region, or of the word READ_WORD reads
  | key       -- a byte of the key region
  | iv        -- a byte of the IV region
  | random    -- a byte of the random source (43_framing.md R200)
  | host      -- a host read of one buffer byte (R86, R276)
  deriving DecidableEq, Repr

/-- The quality of the random source, OPEN (00_scope.md R11). It "changes no rule of the model". -/
inductive RngKind where
  | nonSecure
  | secure
  deriving DecidableEq, Repr, Inhabited

/-- `Draw8()` (00_scope.md R16): the free byte of event `event` (the state's count of steps), drawn for `source`, at
byte index `index` of what is drawn. Log entry 3. -/
opaque Config.draw8 : Nat → DrawSource → Nat → Byte

/-- A fresh 32-bit draw (10_state.md R52, 70_reset_and_hazards.md R276): the free register value of event `event` for
the register at byte offset `offset`. Log entry 3. -/
opaque Config.draw32 : Nat → Nat → Word32

/-- How many further host accesses come before the engine step of a command issued at event `event`: any finite
number, so that every order of 70_reset_and_hazards.md R275 is admitted and the fairness of R279 holds. Log entry 2. -/
opaque Config.latency : Nat → Nat

/-- `BUF_BYTES - 1`, OPEN: any number below 2^31 (00_scope.md R10). Log entry 4. -/
opaque Config.bufBytesLessOne : BitVec 31

/-- `BUF_BYTES`, "with `1 <= BUF_BYTES <= 2^31`" (00_scope.md R10). -/
def Config.bufBytes : Nat := Config.bufBytesLessOne.toNat + 1

/-- `RNG_KIND`, OPEN (00_scope.md R11); no rule reads it. Log entry 10. -/
opaque Config.rngKind : RngKind

/-- `REG_BASE`, the platform's base address of the register space (20_memory.md R99); no rule reads it. Log entry 10. -/
opaque Config.regBase : Nat

/-- `BUF_BASE`, the platform's base address of the buffer memory (20_memory.md R99); no rule reads it. Log entry 10. -/
opaque Config.bufBase : Nat

end Sys2Proof
end

