-- ==== Sys2Proof/Syntax.lean ====
section
/-! DEFINITION. The commands of the device: one constructor per row of spec/opcode_table.json (30_encoding.md R125). -/

namespace Sys2Proof

/-- The ten legal commands. None carries an operand: "The command word carries no register numbers and no
immediates" (R126); the four forms of TRANSFORM are the four combinations of DEC and IVP (R123). -/
inductive Instr where
  | readWord        -- READ_WORD, R152
  | writeWord       -- WRITE_WORD, R153
  | transformEnc    -- TRANSFORM.enc, R190 with DEC = 0, IVP = 0
  | transformDec    -- TRANSFORM.dec, R190 with DEC = 1, IVP = 0
  | transformEncIv  -- TRANSFORM.enc.iv, R190 with DEC = 0, IVP = 1
  | transformDecIv  -- TRANSFORM.dec.iv, R190 with DEC = 1, IVP = 1
  | derive          -- DERIVE, R172
  | rngFill         -- RNG_FILL, R205
  | encrypt         -- ENCRYPT, R206
  | decrypt         -- DECRYPT, R208
  deriving DecidableEq, Repr

end Sys2Proof
end

