-- ==== Sys2Proof/WellFormed.lean ====
section
/-! DEFINITION. Well-formedness. An `Instr` has no operand, so each of its ten terms is well-formed; what can be
ill-formed is a command WORD, checked here against the table of the ten legal words (30_encoding.md R125). -/

namespace Sys2Proof

/-- Every command is well-formed: it has no field that could be out of range (30_encoding.md R126). -/
def Instr.wellFormed : Instr → Bool
  | .readWord => true
  | .writeWord => true
  | .transformEnc => true
  | .transformDec => true
  | .transformEncIv => true
  | .transformDecIv => true
  | .derive => true
  | .rngFill => true
  | .encrypt => true
  | .decrypt => true

/-- The table of 30_encoding.md R125, "The legal command words, all ten of them", in its order. The decoder does not
read it: `decode` follows the field rules R121 to R124, and that the two agree is a statement. -/
def legalWords : List Word32 :=
  [0x00000001#32, 0x00000002#32, 0x00000003#32, 0x00000103#32, 0x00000203#32, 0x00000303#32,
   0x00000004#32, 0x00000005#32, 0x00000006#32, 0x00000007#32]

/-- A command word is well-formed when it is one of the ten of R125. -/
def wellFormedWord (w : Word32) : Bool := legalWords.contains w

end Sys2Proof
end

