-- ==== Sys2Proof/Decode.lean ====
section
/-! DEFINITION. The decoder of the command word (30_encoding.md R121 to R128), total on every 32-bit value, and the
encoder and the assembler names (R125, R129). -/

namespace Sys2Proof

/-- `v[hi:lo]`, "the field of `v` from bit `hi` down to bit `lo`, inclusive, read as an unsigned number"
(00_scope.md R14). -/
def bits (v : Word32) (hi lo : Nat) : Nat := v.toNat / 2 ^ lo % 2 ^ (hi - lo + 1)

/-- Why a command word is illegal, one name per conjunct of `legalCmd` (30_encoding.md R124). The device reports all
four as Error(IllegalCommand) (60_exceptions.md R242). -/
inductive IllegalWord where
  | reservedHigh   -- a bit of 31:10 is set
  | reservedMid    -- a bit of 7:4 is set
  | opcode         -- OP is 0 or 8 to 15
  | modifier       -- DEC or IVP with an OP other than TRANSFORM
  deriving DecidableEq, Repr

/-- `legalCmd(w)` of 30_encoding.md R124. -/
def legalCmd (w : Word32) : Bool :=
  bits w 31 10 == 0 && bits w 7 4 == 0 && (1 ≤ bits w 3 0 && bits w 3 0 ≤ 7) &&
    (bits w 3 0 == 3 || bits w 9 8 == 0)

/-- The first conjunct of R124 that an illegal word fails. -/
def illegalReason (w : Word32) : IllegalWord :=
  if bits w 31 10 ≠ 0 then .reservedHigh
  else if bits w 7 4 ≠ 0 then .reservedMid
  else if bits w 3 0 < 1 ∨ 7 < bits w 3 0 then .opcode
  else .modifier

/-- The form of TRANSFORM that the bits DEC and IVP select (30_encoding.md R123). -/
def transformForm (dec ivp : Nat) : Instr :=
  match dec, ivp with
  | 0, 0 => .transformEnc
  | _, 0 => .transformDec
  | 0, _ => .transformEncIv
  | _, _ => .transformDecIv

/-- `decode(w)` of 30_encoding.md R128: "This function is total on every 32-bit value". -/
def decode (w : Word32) : Except IllegalWord Instr :=
  if legalCmd w then
    match bits w 3 0 with
    | 1 => .ok .readWord
    | 2 => .ok .writeWord
    | 3 => .ok (transformForm (bits w 8 8) (bits w 9 9))
    | 4 => .ok .derive
    | 5 => .ok .rngFill
    | 6 => .ok .encrypt
    | 7 => .ok .decrypt
    | _ => .error .opcode
  else .error (illegalReason w)

/-- A command word from its fields OP, DEC and IVP, every reserved bit 0 (30_encoding.md R121). -/
def commandWord (op dec ivp : Nat) : Word32 := BitVec.ofNat 32 (op + dec * 2 ^ 8 + ivp * 2 ^ 9)

/-- The command word of a command, from the opcode map (30_encoding.md R122) and DEC and IVP (R123). -/
def encode : Instr → Word32
  | .readWord => commandWord 1 0 0
  | .writeWord => commandWord 2 0 0
  | .transformEnc => commandWord 3 0 0
  | .transformDec => commandWord 3 1 0
  | .transformEncIv => commandWord 3 0 1
  | .transformDecIv => commandWord 3 1 1
  | .derive => commandWord 4 0 0
  | .rngFill => commandWord 5 0 0
  | .encrypt => commandWord 6 0 0
  | .decrypt => commandWord 7 0 0

/-- The assembler name of a command, "exactly as there" (30_encoding.md R129, the assembler column of R125). -/
def mnemonic : Instr → String
  | .readWord => "READ_WORD"
  | .writeWord => "WRITE_WORD"
  | .transformEnc => "TRANSFORM.enc"
  | .transformDec => "TRANSFORM.dec"
  | .transformEncIv => "TRANSFORM.enc.iv"
  | .transformDecIv => "TRANSFORM.dec.iv"
  | .derive => "DERIVE"
  | .rngFill => "RNG_FILL"
  | .encrypt => "ENCRYPT"
  | .decrypt => "DECRYPT"

/-- All ten commands, in the order of R125. -/
def allInstrs : List Instr :=
  [.readWord, .writeWord, .transformEnc, .transformDec, .transformEncIv, .transformDecIv,
   .derive, .rngFill, .encrypt, .decrypt]

/-- `word(M)` of 30_encoding.md R131: the word of the command named `m`, none when no command has that name
(R129: "No other suffix or order is accepted"). -/
def assemble (m : String) : Option Word32 :=
  (allInstrs.find? fun i => mnemonic i == m).map encode

/-- The instruction that the decoder reads from a row of the opcode table whose first `nbits` bits are `w`: a command
word is one 32-bit register value, so its bits are the table's bits, and the bits above `nbits` are 0. -/
def decodeTableWord (nbits w : Nat) : Option Instr :=
  if w % 2 ^ nbits < 2 ^ 32 then
    match decode (BitVec.ofNat 32 (w % 2 ^ nbits)) with
    | .ok i => some i
    | .error _ => none
  else none

end Sys2Proof
end

