-- ==== Sys2Proof/Machine/State.lean ====
section
/-! DEFINITION. The state of the device (10_state.md R53) as plain data, with the host's side of the bus, the reasons a
step can stop, and the state after reset (70_reset_and_hazards.md R272). -/

namespace Sys2Proof.Machine

/-- The thirteen registers of 10_state.md R30. -/
inductive Reg where
  | id | config | cmd | status | srcPtr | srcLen | keyPtr | keyLen | ivPtr | dstPtr | data | resLen | bufSize
  deriving DecidableEq, Repr

/-- The error codes of 60_exceptions.md R242. -/
inductive ErrCode where
  | invalidKey | invalidConfiguration | malformedCiphertext | illegalCommand | invalidLength | regionOverlap
  deriving DecidableEq, Repr

/-- The causes of a device fault, 60_exceptions.md R245. A device fault is a state of the device with STATUS.FAULT = 1,
not a stop of the model. -/
inductive FaultCause where
  | outOfRange | hazardWrite
  deriving DecidableEq, Repr

/-- How a command that does not succeed ends (60_exceptions.md R241): `Error(e)` or `Fault(c)`. -/
inductive Abort where
  | error (e : ErrCode)
  | fault (c : FaultCause)
  deriving DecidableEq, Repr

/-- One check of a command and how the command ends when it fails (60_exceptions.md R247). -/
abbrev Check := Bool × Abort

/-- A region of the buffer: an unsigned start offset and a byte count (20_memory.md R88). -/
structure Region where
  ptr : Nat
  len : Nat
  deriving DecidableEq, Repr

/-- The two address spaces (20_memory.md R80). -/
inductive Space where
  | register
  | buffer
  deriving DecidableEq, Repr

/-- What the host does next: the lines of 30_encoding.md R130, the polling loop of R131, and the accesses of a width
that the space does not have (R81, R82). An offset is the byte offset on the bus. -/
inductive HostOp where
  | wr (offset : Nat) (value : Word32)   -- 32-bit register write
  | rd (offset : Nat)                    -- 32-bit register read
  | sb (offset : Nat) (value : Byte)     -- buffer byte write
  | lb (offset : Nat)                    -- buffer byte read
  | rst                                  -- assert reset
  | poll                                 -- read STATUS until its bit 0 reads 0
  | badWidth (space : Space)             -- any access of another width
  deriving DecidableEq, Repr

/-- What a host read returned: the offset read and the value (30_encoding.md R130, `rd REG -> value`). -/
inductive HostRead where
  | reg (offset : Nat) (value : Word32)
  | buf (offset : Nat) (value : Byte)
  deriving DecidableEq, Repr

/-- The defined bytes of the buffer memory, by offset, offsets strictly rising. A byte that is not listed is undefined
(20_memory.md R86): it holds no value, and each read of it is a fresh draw. -/
abbrev Memory := List Host.Cell

/-- The model's stops as faults: NONE. Every failure of a command is posted in STATUS and is a next state
(60_exceptions.md R241 to R245; log entry 9). -/
inductive Fault where
  deriving DecidableEq, Repr

/-- The model's refusals. -/
inductive Refusal where
  /-- Raised only by an arm of exec that has no meaning yet; no arm of this model raises it. Safe. -/
  | notModelled (mnemonic : String)
  /-- Raised by a host access to the register space of another width, at an offset that is not 4-aligned, or past
  0x3C: "The model refuses any other host access to the register space" (20_memory.md R81). Safe. -/
  | registerAccess
  /-- Raised by a host access to the buffer memory of another width, or at an offset of BUF_BYTES or more: "The model
  refuses wider host accesses and any offset `a >= BUF_BYTES`" (20_memory.md R82). Safe. -/
  | bufferAccess
  deriving DecidableEq, Repr

/-- The whole state: the registers and the buffer of 10_state.md R53, and the model's own last four fields. A register
field that can be undefined (10_state.md R52) is an Option, with none for undefined. ID has no field: it is
hard-wired (R31, log entry 5). -/
structure State where
  config  : Option Word32
  cmd     : Option Word32
  status  : Word32
  srcPtr  : Option Word32
  srcLen  : Option Word32
  keyPtr  : Option Word32
  keyLen  : Option Word32
  ivPtr   : Option Word32
  dstPtr  : Option Word32
  data    : Option Word32
  resLen  : Option Word32
  /-- BUFSIZE, which holds BUF_BYTES (R44): the model's parameter, never written (log entry 4). -/
  bufSize : Word32
  mem     : Memory
  /-- The host's lines still to be performed, next first (R19, R130; log entry 1). -/
  host    : List HostOp
  /-- What the host's reads returned, newest first (log entry 12). -/
  reads   : List HostRead
  /-- How many host accesses still come before the pending command's engine step (R275, R279; log entry 2). -/
  delay   : Nat
  /-- The count of steps taken: the index of every free value (R16, R86, R200; log entry 3). -/
  events  : Nat
  deriving DecidableEq, Repr

/-- The machine right after reset (70_reset_and_hazards.md R272): every register at its reset value, every buffer byte
undefined; no host line placed, nothing read, no delay, no event counted (log entry 15). -/
def State.reset : State where
  config  := some 0#32
  cmd     := some 0#32
  status  := 0#32
  srcPtr  := some 0#32
  srcLen  := some 0#32
  keyPtr  := some 0#32
  keyLen  := some 0#32
  ivPtr   := some 0#32
  dstPtr  := some 0#32
  data    := some 0#32
  resLen  := some 0#32
  bufSize := BitVec.ofNat 32 Config.bufBytes
  mem     := []
  host    := []
  reads   := []
  delay   := 0
  events  := 0

end Sys2Proof.Machine
end

