-- ==== Sys2Proof/Machine/Flags.lean ====
section
/-! DEFINITION. The STATUS register: its fields, the words the device posts in it (10_state.md R42 and R43), and the
numbers of the error codes and fault causes (60_exceptions.md R242 and R245). The device has no other flag (R49). -/

namespace Sys2Proof.Machine

/-- A STATUS word from its fields, every reserved bit 0 (10_state.md R42). -/
def statusWord (busy done fault err fcause : Nat) : Word32 :=
  BitVec.ofNat 32 (busy + done * 2 ^ 1 + fault * 2 ^ 2 + err * 2 ^ 4 + fcause * 2 ^ 8)

/-- The number posted in STATUS.ERR (60_exceptions.md R242). -/
def errNumber : ErrCode → Nat
  | .invalidKey => 1
  | .invalidConfiguration => 2
  | .malformedCiphertext => 3
  | .illegalCommand => 4
  | .invalidLength => 5
  | .regionOverlap => 6

/-- The number posted in STATUS.FCAUSE (60_exceptions.md R245). -/
def causeNumber : FaultCause → Nat
  | .outOfRange => 1
  | .hazardWrite => 2

/-- STATUS after an issue (20_memory.md R85). -/
def busyStatus : Word32 := statusWord 1 0 0 0 0

/-- STATUS after a success completion (60_exceptions.md R246). -/
def successStatus : Word32 := statusWord 0 1 0 0 0

/-- STATUS after an error or a fault completion (60_exceptions.md R243, R244; 70_reset_and_hazards.md R275). -/
def abortStatus : Abort → Word32
  | .error e => statusWord 0 1 0 (errNumber e) 0
  | .fault c => statusWord 0 1 1 0 (causeNumber c)

/-- STATUS.BUSY, bit 0 (10_state.md R42). -/
def busy (s : State) : Bool := bits s.status 0 0 == 1

/-- STATUS.DONE, bit 1 (10_state.md R42). -/
def done (s : State) : Bool := bits s.status 1 1 == 1

/-- STATUS.FAULT, bit 2 (10_state.md R42). -/
def faulted (s : State) : Bool := bits s.status 2 2 == 1

/-- STATUS.ERR, bits 7:4 (10_state.md R42). -/
def err (s : State) : Nat := bits s.status 7 4

/-- STATUS.FCAUSE, bits 11:8 (10_state.md R42). -/
def fcause (s : State) : Nat := bits s.status 11 8

end Sys2Proof.Machine
end

