-- ==== Sys2Proof/Machine/Ops.lean ====
section
/-! DEFINITION. The named operations over the buffer memory and the registers, byte order, the free values of a step,
and how a command ends: success, error or fault (60_exceptions.md R240 to R247). -/

namespace Sys2Proof.Machine

/-! ### The buffer memory (20_memory.md R80, R86, R87) -/

/-- The byte at offset `a`, none when it is undefined (20_memory.md R86). -/
def Memory.read? : Memory → Nat → Option Byte
  | [], _ => none
  | (k, b) :: rest, a => if a = k then some b else Memory.read? rest a

/-- `BUF[a] <- b`: the byte becomes defined (20_memory.md R86, R87). -/
def Memory.write : Memory → Nat → Byte → Memory
  | [], a, b => [(a, b)]
  | (k, c) :: rest, a, b =>
    if a < k then (a, b) :: (k, c) :: rest
    else if a = k then (a, b) :: rest
    else (k, c) :: Memory.write rest a b

/-- `MemWrite(a, n, S)` with `n` the length of `S` (00_scope.md R16). -/
def Memory.writeBytes : Memory → Nat → List Byte → Memory
  | m, _, [] => m
  | m, a, b :: bs => Memory.writeBytes (Memory.write m a b) (a + 1) bs

/-- The canonical form: offsets strictly rising. No listed entry equals what an unlisted byte holds, since an unlisted
byte holds no value. -/
def Memory.wf : Memory → Bool
  | [] => true
  | [_] => true
  | (a, _) :: (b, c) :: rest => decide (a < b) && Memory.wf ((b, c) :: rest)

/-- Every defined byte is a byte of the buffer: "offsets 0 to `BUF_BYTES - 1`" (20_memory.md R80). -/
def Memory.within (m : Memory) (size : Nat) : Bool := m.all fun c => decide (c.1 < size)

/-- `MemRead(a, n)` (00_scope.md R16): each undefined byte is a fresh draw of this event, made for `source`. -/
def memRead (s : State) (source : DrawSource) (a n : Nat) : List Byte :=
  (List.range n).map fun t => (Memory.read? s.mem (a + t)).getD (Config.draw8 s.events source t)

/-- `MemRead` of a whole region. -/
def readRegion (s : State) (source : DrawSource) (r : Region) : List Byte := memRead s source r.ptr r.len

/-- `[Draw8() for t in 0..n-1]`: fresh random bytes (43_framing.md R200). -/
def randomBytes (s : State) (n : Nat) : List Byte := (List.range n).map (Config.draw8 s.events .random)

/-! ### Byte sequences and little-endian words (00_scope.md R14 to R16, 20_memory.md R90) -/

/-- `S[a : b]` (00_scope.md R14). -/
def slice (S : List Byte) (a b : Nat) : List Byte := (S.drop a).take (b - a)

/-- `le(S)`: "the unsigned value of byte sequence `S` read little-endian" (00_scope.md R16). -/
def le : List Byte → Nat
  | [] => 0
  | b :: bs => b.toNat + 2 ^ 8 * le bs

/-- `bytes_le(v, n)`: "the `n`-byte little-endian sequence whose byte `t` is `(v div 2^(8t)) mod 256`"
(00_scope.md R16). -/
def bytesLe (v n : Nat) : List Byte := (List.range n).map fun t => BitVec.ofNat 8 (v / 2 ^ (8 * t) % 256)

/-- `R = 2^(8*ws)`, the source's WORD_RANGE (00_scope.md R13). -/
def radix (ws : Nat) : Nat := 2 ^ (8 * ws)

/-- `ReadWord(S, a)` (40_word_codec.md R150). -/
def codecRead (ws : Nat) (S : List Byte) (a : Nat) : Nat := le (slice S a (a + ws))

/-- `WriteWord(v)` (40_word_codec.md R151). -/
def codecWrite (ws v : Nat) : List Byte := bytesLe (v % radix ws) ws

/-- `roundup(n, w)` (00_scope.md R15). -/
def roundup (n w : Nat) : Nat := n + (w - n % w) % w

/-! ### The registers (10_state.md R30) -/

/-- The constant value of ID (10_state.md R31). -/
def idValue : Word32 := 0x57430001#32

/-- The value a register holds, none when it is undefined (10_state.md R52). -/
def reg (s : State) : Reg → Option Word32
  | .id => some idValue
  | .config => s.config
  | .cmd => s.cmd
  | .status => some s.status
  | .srcPtr => s.srcPtr
  | .srcLen => s.srcLen
  | .keyPtr => s.keyPtr
  | .keyLen => s.keyLen
  | .ivPtr => s.ivPtr
  | .dstPtr => s.dstPtr
  | .data => s.data
  | .resLen => s.resLen
  | .bufSize => some s.bufSize

/-- `reg[X] <- v`, or the register becomes undefined. ID and BUFSIZE are constants and STATUS has its own writers
(10_state.md R31, R43, R44), so this leaves them alone. -/
def setReg (s : State) (r : Reg) (v : Option Word32) : State :=
  match r with
  | .config => { s with config := v }
  | .cmd => { s with cmd := v }
  | .srcPtr => { s with srcPtr := v }
  | .srcLen => { s with srcLen := v }
  | .keyPtr => { s with keyPtr := v }
  | .keyLen => { s with keyLen := v }
  | .ivPtr => { s with ivPtr := v }
  | .dstPtr => { s with dstPtr := v }
  | .data => { s with data := v }
  | .resLen => { s with resLen := v }
  | .id => s
  | .status => s
  | .bufSize => s

/-- The byte offset of a register (10_state.md R30). -/
def regOffset : Reg → Nat
  | .id => 0x00
  | .config => 0x04
  | .cmd => 0x08
  | .status => 0x0C
  | .srcPtr => 0x10
  | .srcLen => 0x14
  | .keyPtr => 0x18
  | .keyLen => 0x1C
  | .ivPtr => 0x20
  | .dstPtr => 0x24
  | .data => 0x28
  | .resLen => 0x2C
  | .bufSize => 0x30

/-- The register at a byte offset, none at any other offset, the reserved ones included (10_state.md R30). -/
def regAt : Nat → Option Reg
  | 0x00 => some .id
  | 0x04 => some .config
  | 0x08 => some .cmd
  | 0x0C => some .status
  | 0x10 => some .srcPtr
  | 0x14 => some .srcLen
  | 0x18 => some .keyPtr
  | 0x1C => some .keyLen
  | 0x20 => some .ivPtr
  | 0x24 => some .dstPtr
  | 0x28 => some .data
  | 0x2C => some .resLen
  | 0x30 => some .bufSize
  | _ => none

/-- A register as a value: an undefined register is a fresh draw of this event (10_state.md R52; log entry 6). -/
def regValue (s : State) (r : Reg) : Word32 := (reg s r).getD (Config.draw32 s.events (regOffset r))

/-- The command word the engine reads at its step: `w <- reg[CMD]` (60_exceptions.md R240). -/
def commandPending (s : State) : Word32 := regValue s .cmd

/-! ### How a command ends (60_exceptions.md R241 to R247) -/

/-- Success completion: STATUS posts it, and the step is counted (60_exceptions.md R246). -/
def succeed (s : State) : State := { s with status := successStatus, events := s.events + 1 }

/-- Error or fault completion, the one operation for both (60_exceptions.md R243, R244): RES_LEN becomes 0 and STATUS
posts the code or the cause; "No other register and no buffer byte changes". -/
def abort (s : State) (a : Abort) : State :=
  { s with resLen := some 0#32, status := abortStatus a, events := s.events + 1 }

/-- The first check that fails, in order (60_exceptions.md R247). A later check is not looked at. -/
def firstFailure : List Check → Option Abort
  | [] => none
  | (ok, a) :: rest => if ok then firstFailure rest else some a

/-- A command: its checks in order, then its effect (60_exceptions.md R240). `effect` is the state its pseudocode
leaves, computed from the state at the beginning of the step (00_scope.md R17). -/
def runCommand (s : State) (checks : List Check) (effect : State) : Host.Outcome State Fault Refusal :=
  .next (match firstFailure checks with
    | none => succeed effect
    | some a => abort s a)

/-- `MemWrite` of the destination region and RES_LEN <- its length (10_state.md R47). -/
def storeResult (s : State) (dst : Region) (bytes : List Byte) : State :=
  { s with mem := Memory.writeBytes s.mem dst.ptr bytes, resLen := some (BitVec.ofNat 32 dst.len) }

/-- DATA <- the word read, zero-extended, and RES_LEN <- its length (40_word_codec.md R152). -/
def loadResult (s : State) (v n : Nat) : State :=
  { s with data := some (BitVec.ofNat 32 v), resLen := some (BitVec.ofNat 32 n) }

/-- What the engine step does with a word that does not decode: Error(IllegalCommand) (60_exceptions.md R240, R247). -/
def illegalCommand (s : State) : Host.Outcome State Fault Refusal := .next (abort s (.error .illegalCommand))

/-- Reset (70_reset_and_hazards.md R270): every register at its reset value, every buffer byte undefined, the pending
command discarded. BUFSIZE is a constant (10_state.md R44); the host's side and the count of steps go on. -/
def deviceReset (s : State) : State :=
  { State.reset with bufSize := s.bufSize, host := s.host, reads := s.reads, events := s.events }

end Sys2Proof.Machine
end

