-- ==== Sys2Proof/Machine/Operands.lean ====
section
/-! DEFINITION. The operands of the commands: the fields of CONFIG (10_state.md R33), the regions the registers name
(30_encoding.md R126, R127), and the checks on them (60_exceptions.md R247). -/

namespace Sys2Proof.Machine

/-! ### CONFIG (00_scope.md R13, 10_state.md R33 to R39) -/

/-- `ws = 1 << CONFIG.WSZ` (00_scope.md R13). -/
def wordSize (c : Word32) : Nat := 1 <<< bits c 1 0

/-- `ivLen = 8 << CONFIG.IVL` (00_scope.md R13). -/
def ivLength (c : Word32) : Nat := 8 <<< bits c 6 4

/-- `m = CONFIG.MARK`: the length of the padding marker (00_scope.md R13). -/
def markerLen (c : Word32) : Nat := bits c 8 8

/-- `CONFIG.IVSRC = 1`: ENCRYPT takes the IV at IV_PTR (10_state.md R37). -/
def ivInjected (c : Word32) : Bool := bits c 9 9 == 1

/-- The reserved-bit mask of 10_state.md R39 (90_conflicts.md C8). -/
def configReserved : Word32 := 0xFFFFEC8C#32

/-- `configValid(c)` (10_state.md R39). -/
def configValid (c : Word32) : Bool :=
  bits c 1 0 != 3 && decide (bits c 6 4 ≤ 5) && bits c 12 12 == 0 && (bits c 8 8 == 1 || bits c 1 0 == 0) &&
    (c &&& configReserved) == 0#32

/-- The value of CONFIG at the engine step (70_reset_and_hazards.md R278). -/
def configOf (s : State) : Word32 := regValue s .config

/-! ### Pointers, lengths and regions (30_encoding.md R126, R127) -/

/-- "every pointer and length is the unsigned 32-bit value of its register" (30_encoding.md R127). -/
def regNat (s : State) (r : Reg) : Nat := (regValue s r).toNat

/-- The source region, `(SRC_PTR, SRC_LEN)`. -/
def srcRegion (s : State) : Region := ⟨regNat s .srcPtr, regNat s .srcLen⟩

/-- The key region, `(KEY_PTR, KEY_LEN)`. -/
def keyRegion (s : State) : Region := ⟨regNat s .keyPtr, regNat s .keyLen⟩

/-- The IV region, `(IV_PTR, ivLen)`. -/
def ivRegion (s : State) : Region := ⟨regNat s .ivPtr, ivLength (configOf s)⟩

/-- The destination region of `n` bytes, `(DST_PTR, n)`. -/
def dstRegion (s : State) (n : Nat) : Region := ⟨regNat s .dstPtr, n⟩

/-- `in_range(p, n)` (20_memory.md R88), with BUF_BYTES as BUFSIZE holds it (10_state.md R44). -/
def inRange (s : State) (r : Region) : Bool := r.len == 0 || decide (r.ptr + r.len ≤ s.bufSize.toNat)

/-- `overlap((p1, n1), (p2, n2))` (20_memory.md R89). -/
def overlap (r q : Region) : Bool :=
  decide (r.len > 0) && decide (q.len > 0) && decide (r.ptr < q.ptr + q.len) && decide (q.ptr < r.ptr + r.len)

/-- `keyValid(kl)` (42_modadd_transform.md R187). -/
def keyValid (ws kl : Nat) : Bool := decide (kl > 0) && kl % ws == 0

/-! ### The checks, by rank (60_exceptions.md R247) -/

/-- Rank 2. -/
def configCheck (s : State) : Check := (configValid (configOf s), .error .invalidConfiguration)

/-- Rank 3. -/
def keyCheck (s : State) : Check := (keyValid (wordSize (configOf s)) (regNat s .keyLen), .error .invalidKey)

/-- Rank 4 (42_modadd_transform.md R191). -/
def lengthCheck (s : State) : Check := (regNat s .srcLen % wordSize (configOf s) == 0, .error .invalidLength)

/-- Rank 5: every input region. -/
def inputCheck (s : State) (inputs : List Region) : Check := (inputs.all (inRange s), .fault .outOfRange)

/-- Rank 7: the destination region. -/
def destCheck (s : State) (dst : Region) : Check := (inRange s dst, .fault .outOfRange)

/-- Rank 8: the destination overlaps no input region (20_memory.md R89). -/
def overlapCheck (dst : Region) (inputs : List Region) : Check :=
  (inputs.all fun r => !overlap dst r, .error .regionOverlap)

end Sys2Proof.Machine
end

