-- ==== Sys2Proof/Machine/Codec.lean ====
section
/-! DEFINITION. The word codec commands READ_WORD and WRITE_WORD (40_word_codec.md R152, R153). -/

namespace Sys2Proof.Machine

/-- The word READ_WORD reads: `ws` bytes at SRC_PTR. -/
def readWordRegion (s : State) : Region := ⟨regNat s .srcPtr, wordSize (configOf s)⟩

/-- The word WRITE_WORD writes: `ws` bytes at DST_PTR. -/
def writeWordRegion (s : State) : Region := dstRegion s (wordSize (configOf s))

/-- READ_WORD (40_word_codec.md R152). -/
def execReadWord (s : State) : Host.Outcome State Fault Refusal :=
  runCommand s
    [configCheck s,
     inputCheck s [readWordRegion s]]
    (loadResult s (le (readRegion s .src (readWordRegion s))) (wordSize (configOf s)))

/-- WRITE_WORD (40_word_codec.md R153). -/
def execWriteWord (s : State) : Host.Outcome State Fault Refusal :=
  runCommand s
    [configCheck s,
     destCheck s (writeWordRegion s)]
    (storeResult s (writeWordRegion s) (codecWrite (wordSize (configOf s)) (regNat s .data)))

end Sys2Proof.Machine
end

