-- ==== Sys2Proof/Machine/Transform.lean ====
section
/-! DEFINITION. The modular transform and the four forms of TRANSFORM (42_modadd_transform.md R180 to R191). -/

namespace Sys2Proof.Machine

/-- One output word from the input word `x`, the key word `k` and the IV word `v`: the sum or the difference modulo `R`,
never negative (42_modadd_transform.md R184, R185). -/
def transformWord (ws : Nat) (dec : Bool) (x k v : Nat) : Nat :=
  if dec then (((x : Int) - (k : Int) - (v : Int)) % (radix ws : Int)).toNat
  else (x + k + v) % radix ws

/-- Word `i mod n` of a sequence of `n` words: cyclic indexing at word granularity, by remainder
(42_modadd_transform.md R182, R183, R186). -/
def cyclicWord (ws : Nat) (S : List Byte) (i : Nat) : Nat := codecRead ws S (i % (S.length / ws) * ws)

/-- The IV contribution to word `i`, 0 when the IV is absent (42_modadd_transform.md R183). -/
def ivWord (ws : Nat) (V : Option (List Byte)) (i : Nat) : Nat :=
  match V with
  | some S => cyclicWord ws S i
  | none => 0

/-- `Transform(ws, X, K, V, dec)` (42_modadd_transform.md R180). -/
def transform (ws : Nat) (X K : List Byte) (V : Option (List Byte)) (dec : Bool) : List Byte :=
  (List.range (X.length / ws)).flatMap fun i =>
    codecWrite ws (transformWord ws dec (codecRead ws X (i * ws)) (cyclicWord ws K i) (ivWord ws V i))

/-- The input regions of TRANSFORM: the IV is one only when IVP = 1 (42_modadd_transform.md R190). -/
def transformInputs (s : State) (ivp : Bool) : List Region :=
  [srcRegion s, keyRegion s] ++ (if ivp then [ivRegion s] else [])

/-- The IV that TRANSFORM reads, absent when IVP = 0 (42_modadd_transform.md R190). -/
def transformIv (s : State) (ivp : Bool) : Option (List Byte) :=
  if ivp then some (readRegion s .iv (ivRegion s)) else none

/-- The bytes TRANSFORM writes (42_modadd_transform.md R190). -/
def transformOutput (s : State) (dec ivp : Bool) : List Byte :=
  transform (wordSize (configOf s)) (readRegion s .src (srcRegion s)) (readRegion s .key (keyRegion s))
    (transformIv s ivp) dec

/-- The destination region of TRANSFORM, as long as its input (42_modadd_transform.md R190). -/
def transformDst (s : State) : Region := dstRegion s (regNat s .srcLen)

/-- TRANSFORM with the command bits DEC and IVP (42_modadd_transform.md R190). -/
def transformCommand (s : State) (dec ivp : Bool) : Host.Outcome State Fault Refusal :=
  runCommand s
    [configCheck s,
     keyCheck s,
     lengthCheck s,
     inputCheck s (transformInputs s ivp),
     destCheck s (transformDst s),
     overlapCheck (transformDst s) (transformInputs s ivp)]
    (storeResult s (transformDst s) (transformOutput s dec ivp))

/-- TRANSFORM.enc: DEC = 0, IVP = 0. -/
def execTransformEnc (s : State) : Host.Outcome State Fault Refusal := transformCommand s false false

/-- TRANSFORM.dec: DEC = 1, IVP = 0. -/
def execTransformDec (s : State) : Host.Outcome State Fault Refusal := transformCommand s true false

/-- TRANSFORM.enc.iv: DEC = 0, IVP = 1. -/
def execTransformEncIv (s : State) : Host.Outcome State Fault Refusal := transformCommand s false true

/-- TRANSFORM.dec.iv: DEC = 1, IVP = 1. -/
def execTransformDecIv (s : State) : Host.Outcome State Fault Refusal := transformCommand s true true

end Sys2Proof.Machine
end

