-- ==== Sys2Proof/Machine/Deriver.lean ====
section
/-! DEFINITION. The key derivation and DERIVE (41_iv_deriver.md R170, R172). -/

namespace Sys2Proof.Machine

/-- `DeriveKey(ws, K, V)`: "exactly one call into the Transform Engine with the IV standing in as the "key" argument and
no IV of its own" (41_iv_deriver.md R170). -/
def deriveKey (ws : Nat) (K V : List Byte) : List Byte := transform ws K V none false

/-- The bytes DERIVE writes (41_iv_deriver.md R172). -/
def deriveOutput (s : State) : List Byte :=
  deriveKey (wordSize (configOf s)) (readRegion s .key (keyRegion s)) (readRegion s .iv (ivRegion s))

/-- The destination region of DERIVE, as long as its key (41_iv_deriver.md R172). -/
def deriveDst (s : State) : Region := dstRegion s (regNat s .keyLen)

/-- DERIVE (41_iv_deriver.md R172). -/
def execDerive (s : State) : Host.Outcome State Fault Refusal :=
  runCommand s
    [configCheck s,
     keyCheck s,
     inputCheck s [keyRegion s, ivRegion s],
     destCheck s (deriveDst s),
     overlapCheck (deriveDst s) [keyRegion s, ivRegion s]]
    (storeResult s (deriveDst s) (deriveOutput s))

end Sys2Proof.Machine
end

