-- ==== Sys2Proof/Machine/Framing.lean ====
section
/-! DEFINITION. Padding, the frame, and RNG_FILL, ENCRYPT and DECRYPT (43_framing.md R200 to R208). -/

namespace Sys2Proof.Machine

/-! ### RNG_FILL -/

/-- The destination region of RNG_FILL: SRC_LEN rounded up to whole words (43_framing.md R205). -/
def rngDst (s : State) : Region := dstRegion s (roundup (regNat s .srcLen) (wordSize (configOf s)))

/-- RNG_FILL (43_framing.md R205). -/
def execRngFill (s : State) : Host.Outcome State Fault Refusal :=
  runCommand s
    [configCheck s,
     destCheck s (rngDst s)]
    (storeResult s (rngDst s) (randomBytes s (rngDst s).len))

/-! ### Padding and the frame -/

/-- `padCount(sl)` (43_framing.md R201). -/
def padCount (ws sl : Nat) : Nat := (ws - sl % ws) % ws

/-- The filler byte (43_framing.md R202). -/
def fillerByte : Byte := 0x20#8

/-- `Pad(P)` (43_framing.md R202). -/
def pad (ws : Nat) (P : List Byte) : List Byte := P ++ List.replicate (padCount ws P.length) fillerByte

/-- `Frame(m, pc, V, B)` (43_framing.md R203). -/
def frame (m pc : Nat) (V B : List Byte) : List Byte := (if m = 1 then [BitVec.ofNat 8 pc] else []) ++ V ++ B

/-! ### ENCRYPT -/

/-- The input regions of ENCRYPT: the IV is one only when IVSRC = 1 (43_framing.md R206). -/
def encryptInputs (s : State) : List Region :=
  [srcRegion s, keyRegion s] ++ (if ivInjected (configOf s) then [ivRegion s] else [])

/-- The IV of ENCRYPT: the bytes at IV_PTR, or fresh random bytes (43_framing.md R204). -/
def encryptIv (s : State) : List Byte :=
  if ivInjected (configOf s) then readRegion s .iv (ivRegion s) else randomBytes s (ivLength (configOf s))

/-- The frame of a plaintext `P` under a key `K` and an IV `V` (the pseudocode of 43_framing.md R206). -/
def encryptFrame (c : Word32) (P K V : List Byte) : List Byte :=
  let ws := wordSize c
  frame (markerLen c) (padCount ws P.length) V (transform ws (pad ws P) (deriveKey ws K V) (some V) false)

/-- The destination region of ENCRYPT: `n = m + ivLen + sl + pc` bytes (43_framing.md R206). -/
def encryptDst (s : State) : Region :=
  let c := configOf s
  let sl := regNat s .srcLen
  dstRegion s (markerLen c + ivLength c + sl + padCount (wordSize c) sl)

/-- The bytes ENCRYPT writes (43_framing.md R206). -/
def encryptOutput (s : State) : List Byte :=
  encryptFrame (configOf s) (readRegion s .src (srcRegion s)) (readRegion s .key (keyRegion s)) (encryptIv s)

/-- ENCRYPT (43_framing.md R206). -/
def execEncrypt (s : State) : Host.Outcome State Fault Refusal :=
  runCommand s
    [configCheck s,
     keyCheck s,
     inputCheck s (encryptInputs s),
     destCheck s (encryptDst s),
     overlapCheck (encryptDst s) (encryptInputs s)]
    (storeResult s (encryptDst s) (encryptOutput s))

/-! ### DECRYPT -/

/-- `pc = (m = 1) ? S[0] : 0` (43_framing.md R207). -/
def frameMarker (c : Word32) (S : List Byte) : Nat := if markerLen c = 1 then (S.headD 0#8).toNat else 0

/-- `bodyLen = sl - m - ivLen`, used only when `sl >= m + ivLen` (43_framing.md R207). -/
def bodyLen (c : Word32) (sl : Nat) : Nat := sl - markerLen c - ivLength c

/-- `malformed(S, sl)` (43_framing.md R207), the later terms evaluated only when `sl >= m + ivLen`. -/
def malformed (c : Word32) (S : List Byte) (sl : Nat) : Bool :=
  decide (sl < markerLen c + ivLength c) ||
    (bodyLen c sl % wordSize c != 0 || decide (frameMarker c S ≥ wordSize c) ||
      decide (frameMarker c S > bodyLen c sl))

/-- The padded plaintext of a frame `S` under a key `K` (the pseudocode of 43_framing.md R208, up to `Q`). -/
def decryptPadded (c : Word32) (S K : List Byte) : List Byte :=
  let m := markerLen c
  let V := slice S m (m + ivLength c)
  let B := slice S (m + ivLength c) S.length
  transform (wordSize c) B (deriveKey (wordSize c) K V) (some V) true

/-- The frame DECRYPT reads. -/
def decryptSource (s : State) : List Byte := readRegion s .src (srcRegion s)

/-- The destination region of DECRYPT: `n = bodyLen - pc` bytes (43_framing.md R208). -/
def decryptDst (s : State) : Region :=
  let c := configOf s
  dstRegion s (bodyLen c (regNat s .srcLen) - frameMarker c (decryptSource s))

/-- The bytes DECRYPT writes, `Q[0 : n]` (43_framing.md R208). -/
def decryptOutput (s : State) : List Byte :=
  slice (decryptPadded (configOf s) (decryptSource s) (readRegion s .key (keyRegion s))) 0 (decryptDst s).len

/-- Rank 6 (60_exceptions.md R247). -/
def malformedCheck (s : State) : Check :=
  (!malformed (configOf s) (decryptSource s) (regNat s .srcLen), .error .malformedCiphertext)

/-- DECRYPT (43_framing.md R208). -/
def execDecrypt (s : State) : Host.Outcome State Fault Refusal :=
  runCommand s
    [configCheck s,
     keyCheck s,
     inputCheck s [srcRegion s, keyRegion s],
     malformedCheck s,
     destCheck s (decryptDst s),
     overlapCheck (decryptDst s) [srcRegion s, keyRegion s]]
    (storeResult s (decryptDst s) (decryptOutput s))

end Sys2Proof.Machine
end

