-- ==== Sys2Proof/Machine/Dispatch.lean ====
section
/-! DEFINITION. What each command does: one arm per constructor of Instr, each one call of its own meaning. -/

namespace Sys2Proof.Machine

def exec (i : Instr) (s : State) : Host.Outcome State Fault Refusal :=
  match i with
  | .readWord => Sys2Proof.Machine.execReadWord s
  | .writeWord => Sys2Proof.Machine.execWriteWord s
  | .transformEnc => Sys2Proof.Machine.execTransformEnc s
  | .transformDec => Sys2Proof.Machine.execTransformDec s
  | .transformEncIv => Sys2Proof.Machine.execTransformEncIv s
  | .transformDecIv => Sys2Proof.Machine.execTransformDecIv s
  | .derive => Sys2Proof.Machine.execDerive s
  | .rngFill => Sys2Proof.Machine.execRngFill s
  | .encrypt => Sys2Proof.Machine.execEncrypt s
  | .decrypt => Sys2Proof.Machine.execDecrypt s

end Sys2Proof.Machine
end

