-- ==== Sys2Proof/Machine/HostPort.lean ====
section
/-! DEFINITION. The host's side: register and buffer accesses while the device is idle (20_memory.md R81 to R87) and
while it is busy (70_reset_and_hazards.md R275, R276), reset (R270), and whose turn it is (60_exceptions.md R240). -/

namespace Sys2Proof.Machine

/-! ### Which accesses exist -/

/-- A register access has a move in the model "at an offset `o` with `o mod 4 = 0` and `o <= 0x3C`"
(20_memory.md R81). -/
def regOffsetLegal (o : Nat) : Bool := o % 4 == 0 && decide (o ≤ 0x3C)

/-- A buffer access has a move in the model "at offset `a` with `a < BUF_BYTES`" (20_memory.md R82). -/
def bufOffsetLegal (s : State) (a : Nat) : Bool := decide (a < s.bufSize.toNat)

/-! ### Reads -/

/-- A register the device may be updating: its host read is a fresh draw while BUSY = 1
(70_reset_and_hazards.md R276). -/
def unstableWhileBusy : Reg → Bool
  | .data => true
  | .resLen => true
  | _ => false

/-- The value of a host read of register offset `o`: idle, 20_memory.md R83; busy, 70_reset_and_hazards.md R276. -/
def hostReadReg (s : State) (o : Nat) : Word32 :=
  match regAt o with
  | none => 0#32
  | some r => if busy s && unstableWhileBusy r then Config.draw32 s.events o else regValue s r

/-- The value of a host read of buffer offset `a`: idle, 20_memory.md R87; busy, "a fresh draw on each read, whether or
not the byte is defined" (70_reset_and_hazards.md R276). -/
def hostReadByte (s : State) (a : Nat) : Byte :=
  if busy s then Config.draw8 s.events .host a
  else (Memory.read? s.mem a).getD (Config.draw8 s.events .host a)

/-- A read changes no state of the device (20_memory.md R83, 70_reset_and_hazards.md R276): the host has its answer. -/
def answer (s : State) (r : HostRead) : State := { s with reads := r :: s.reads }

/-! ### Writes -/

/-- Issue (20_memory.md R85): ignored while FAULT = 1, else CMD is stored and BUSY set; nothing is checked. The order of
the engine step and the host's later accesses is drawn here (log entry 2). -/
def issue (s : State) (v : Word32) : State :=
  if faulted s then s
  else { s with cmd := some v, status := busyStatus, delay := Config.latency s.events }

/-- The registers a host write stores into while idle (20_memory.md R84); CMD is issued instead (R85). -/
def hostWritable : Reg → Bool
  | .config => true
  | .srcPtr => true
  | .srcLen => true
  | .keyPtr => true
  | .keyLen => true
  | .ivPtr => true
  | .dstPtr => true
  | .data => true
  | _ => false

/-- The registers that the offending write of a HazardWrite leaves undefined, besides DATA and RES_LEN
(70_reset_and_hazards.md R275). -/
def hazardTarget : Reg → Bool
  | .config => true
  | .cmd => true
  | .srcPtr => true
  | .srcLen => true
  | .keyPtr => true
  | .keyLen => true
  | .ivPtr => true
  | .dstPtr => true
  | _ => false

/-- HazardWrite (70_reset_and_hazards.md R275), for a write that targeted `target` (none: a buffer byte or a reserved
offset). -/
def hazardWrite (s : State) (target : Option Reg) : State :=
  let t := { s with
    status := abortStatus (.fault .hazardWrite), mem := [], data := none, resLen := none, delay := 0 }
  match target with
  | some r => if hazardTarget r then setReg t r none else t
  | none => t

/-- A host write of `v` to register offset `o` (20_memory.md R84, R85; 70_reset_and_hazards.md R275). -/
def hostWriteReg (s : State) (o : Nat) (v : Word32) : State :=
  if busy s then hazardWrite s (regAt o)
  else match regAt o with
    | none => s
    | some r =>
      if r = .cmd then issue s v
      else if hostWritable r then setReg s r (some v)
      else s

/-- A host write of byte `b` to buffer offset `a` (20_memory.md R87; 70_reset_and_hazards.md R275). -/
def hostWriteByte (s : State) (a : Nat) (b : Byte) : State :=
  if busy s then hazardWrite s none else { s with mem := Memory.write s.mem a b }

/-! ### The host's turn -/

/-- The refusal of an access the space does not have (20_memory.md R81, R82). -/
def spaceRefusal : Space → Refusal
  | .register => .registerAccess
  | .buffer => .bufferAccess

/-- The step is counted (log entry 3). -/
def count (s : State) : State := { s with events := s.events + 1 }

/-- One line of the host, already taken off the list (30_encoding.md R130, R131). A line that is refused has no move,
busy or not (log entry 7). -/
def hostAccess (s : State) : HostOp → Host.Outcome State Fault Refusal
  | .wr o v => if regOffsetLegal o then .next (count (hostWriteReg s o v)) else .refused .registerAccess
  | .rd o => if regOffsetLegal o then .next (count (answer s (.reg o (hostReadReg s o)))) else .refused .registerAccess
  | .sb a b => if bufOffsetLegal s a then .next (count (hostWriteByte s a b)) else .refused .bufferAccess
  | .lb a => if bufOffsetLegal s a then .next (count (answer s (.buf a (hostReadByte s a)))) else .refused .bufferAccess
  | .rst => .next (count (deviceReset s))
  | .poll =>
    let t := count (answer s (.reg (regOffset .status) s.status))
    .next (if busy s then { t with host := .poll :: t.host } else t)
  | .badWidth sp => .refused (spaceRefusal sp)

/-- The host takes its next line; one access fewer comes before a pending engine step (log entry 2). -/
def takeLine (s : State) (rest : List HostOp) : State := { s with host := rest, delay := s.delay - 1 }

/-- The host's turn. A host with no line left does nothing, and an idle device waits (70_reset_and_hazards.md R273). -/
def hostTurn (s : State) : Host.Outcome State Fault Refusal :=
  match s.host with
  | [] => .next s
  | op :: rest => hostAccess (takeLine s rest) op

/-- The engine moves: it is enabled (BUSY = 1, 60_exceptions.md R240), and no host access comes first (log entry 2). -/
def engineTurn (s : State) : Bool := busy s && (s.delay == 0 || s.host.isEmpty)

end Sys2Proof.Machine
end

