-- ==== Sys2Proof/Machine/Step.lean ====
section
/-! DEFINITION. One step of the machine: the engine's (60_exceptions.md R240) or the host's (20_memory.md, R19). -/

namespace Sys2Proof.Machine

/-- One step. When it is the engine's turn, it decodes the pending command word and executes the command, or ends an
illegal one with Error(IllegalCommand); otherwise the host performs its next line. -/
def step (s : State) : Host.Outcome State Fault Refusal :=
  if engineTurn s then
    match decode (commandPending s) with
    | .ok i => exec i s
    | .error _ => illegalCommand s
  else hostTurn s

/-- `s` with the command word `w` pending and the engine's turn next: what an accepted host write of `w` to CMD leaves
(20_memory.md R85), with no host access before the engine step (log entry 1). -/
def State.withFetchWord (s : State) (nbits w : Nat) : State :=
  { s with cmd := some (BitVec.ofNat 32 (w % 2 ^ nbits)), status := busyStatus, delay := 0 }

end Sys2Proof.Machine
end

