-- ==== Sys2Proof/Machine/HostProgram.lean ====
section
/-! DEFINITION. The pseudo-lines of a host program and their expansions (30_encoding.md R131). -/

namespace Sys2Proof.Machine

/-- `cmd M`: `wr CMD, word(M)`. -/
def lineCmd (i : Instr) : List HostOp := [.wr (regOffset .cmd) (encode i)]

/-- `run M`: `cmd M` then `poll`. -/
def lineRun (i : Instr) : List HostOp := lineCmd i ++ [.poll]

/-- `sbs off, b0, b1, ..., bn-1`: one byte write per byte, in ascending offset order. -/
def lineSbs : Nat → List Byte → List HostOp
  | _, [] => []
  | o, b :: bs => .sb o b :: lineSbs (o + 1) bs

/-- `lbs off, n`: `lb off, ..., lb off+n-1`. -/
def lineLbs (o n : Nat) : List HostOp := (List.range n).map fun t => .lb (o + t)

/-- The CONFIG value of `cfg ws=W, iv=L, mark=K, ivsrc=S`:
`log2(W) + (log2(L/8) << 4) + (K << 8) + (S << 9)`. -/
def cfgValue (W L K S : Nat) : Word32 :=
  BitVec.ofNat 32 (Nat.log2 W + (Nat.log2 (L / 8) <<< 4) + (K <<< 8) + (S <<< 9))

/-- `cfg ws=W, iv=L, mark=K, ivsrc=S`: `wr CONFIG, c`. -/
def lineCfg (W L K S : Nat) : List HostOp := [.wr (regOffset .config) (cfgValue W L K S)]

end Sys2Proof.Machine
end

