-- ==== Sys2Proof/Safety.lean ====
section
/-! DEFINITION. The terms claims use: the invariant of the device's state, a complete, clean run
(70_reset_and_hazards.md R282), and the regions a command stores into and reads beside them. -/

namespace Sys2Proof.Machine

/-- The STATUS words the device posts, one per row of the table of 10_state.md R43: reset, issue, success, the six
errors, the two faults. -/
def postedStatus : List Word32 :=
  [0x000#32, 0x001#32, 0x002#32, 0x012#32, 0x022#32, 0x032#32, 0x042#32, 0x052#32, 0x062#32, 0x106#32, 0x206#32]

/-- The registers that can be undefined (10_state.md R52). -/
def definableRegs : List Reg :=
  [.config, .cmd, .srcPtr, .srcLen, .keyPtr, .keyLen, .ivPtr, .dstPtr, .data, .resLen]

/-- Every register is defined. -/
def allDefined (s : State) : Bool := definableRegs.all fun r => (reg s r).isSome

/-- The invariant of the device: STATUS is a word of R43's table, BUF_BYTES is in its range (00_scope.md R10), the
buffer is canonical and inside `[0, BUF_BYTES)`, and a register is undefined only after a HazardWrite fault
(10_state.md R52). -/
abbrev State.Inv (s : State) : Prop :=
  s.status ∈ postedStatus ∧ (1 ≤ s.bufSize.toNat ∧ s.bufSize.toNat ≤ 2 ^ 31) ∧
    (Memory.wf s.mem = true ∧ Memory.within s.mem s.bufSize.toNat = true) ∧
      (allDefined s = true ∨ s.status = abortStatus (.fault .hazardWrite))

/-- A run is complete "when the host has performed its last line and `STATUS.BUSY = 0`" (R282). -/
def State.complete (s : State) : Bool := s.host.isEmpty && !busy s

/-- A run is clean "when it is complete and `STATUS.FAULT = 0`" (R282). -/
def State.clean (s : State) : Bool := s.complete && !faulted s

/-- The region a command stores into, with the expressions its meaning uses; READ_WORD stores nothing. -/
def storeRegion (i : Instr) (s : State) : Region :=
  match i with
  | .readWord => ⟨0, 0⟩
  | .writeWord => writeWordRegion s
  | .transformEnc => transformDst s
  | .transformDec => transformDst s
  | .transformEncIv => transformDst s
  | .transformDecIv => transformDst s
  | .derive => deriveDst s
  | .rngFill => rngDst s
  | .encrypt => encryptDst s
  | .decrypt => decryptDst s

/-- The input regions of the commands whose destination must not overlap them (20_memory.md R89). -/
def inputRegions (i : Instr) (s : State) : List Region :=
  match i with
  | .readWord => []
  | .writeWord => []
  | .transformEnc => transformInputs s false
  | .transformDec => transformInputs s false
  | .transformEncIv => transformInputs s true
  | .transformDecIv => transformInputs s true
  | .derive => [keyRegion s, ivRegion s]
  | .rngFill => []
  | .encrypt => encryptInputs s
  | .decrypt => [srcRegion s, keyRegion s]

end Sys2Proof.Machine
end

