-- ==== Sys2Proof/Certificates/Slice0/Obligations.lean ====
section
/-! DEFINITION. The statements about the device, for the provers. Each docstring names the rule of spec/ it formalises;
a statement that rests on a law the spec marks as derived, or on the model's own fields, says so. -/

open Sys2Proof Sys2Proof.Machine

/-! ### Terms the statements use -/

namespace Sys2Proof.Claims

/-- `legalCmd(w)` of 30_encoding.md R124, over the bits of the word. -/
abbrev legal (w : Word32) : Prop :=
  (w.extractLsb 31 10).toNat = 0 ∧ (w.extractLsb 7 4).toNat = 0 ∧
    (1 ≤ (w.extractLsb 3 0).toNat ∧ (w.extractLsb 3 0).toNat ≤ 7) ∧
      ((w.extractLsb 3 0).toNat = 3 ∨ (w.extractLsb 9 8).toNat = 0)

/-- The state after an error or a fault completion that posts `status` (60_exceptions.md R243, R244). `events` is the
model's own count of steps (log entry 3). -/
def ended (s : State) (status : Word32) : State :=
  { s with resLen := some 0#32, status := status, events := s.events + 1 }

/-- The state after a success that stored `bytes` at `p` and posts `n` in RES_LEN (60_exceptions.md R246). `events` is
the model's own count of steps (log entry 3). -/
def stored (s : State) (p : Nat) (bytes : List Byte) (n : Nat) : State :=
  { s with
    mem := Memory.writeBytes s.mem p bytes, resLen := some (BitVec.ofNat 32 n), status := 0x2#32,
    events := s.events + 1 }

/-- `in_range(p, n)` of 20_memory.md R88, with `BUF_BYTES` as BUFSIZE holds it. -/
abbrev inside (s : State) (r : Nat × Nat) : Prop := r.2 = 0 ∨ r.1 + r.2 ≤ s.bufSize.toNat

/-- `overlap((p1, n1), (p2, n2))` of 20_memory.md R89. -/
abbrev meets (r q : Nat × Nat) : Prop := r.2 > 0 ∧ q.2 > 0 ∧ r.1 < q.1 + q.2 ∧ q.1 < r.1 + r.2

/-- `keyValid(kl)` of 42_modadd_transform.md R187. -/
abbrev goodKey (ws kl : Nat) : Prop := kl > 0 ∧ kl % ws = 0

/-- The registers a command reads, by the table of 30_encoding.md R126; `c` is the value of CONFIG. -/
def readsRegs (i : Instr) (c : Word32) : List Reg :=
  match i with
  | .readWord => [.config, .srcPtr]
  | .writeWord => [.config, .dstPtr, .data]
  | .transformEnc => [.config, .srcPtr, .srcLen, .keyPtr, .keyLen, .dstPtr]
  | .transformDec => [.config, .srcPtr, .srcLen, .keyPtr, .keyLen, .dstPtr]
  | .transformEncIv => [.config, .srcPtr, .srcLen, .keyPtr, .keyLen, .dstPtr, .ivPtr]
  | .transformDecIv => [.config, .srcPtr, .srcLen, .keyPtr, .keyLen, .dstPtr, .ivPtr]
  | .derive => [.config, .keyPtr, .keyLen, .ivPtr, .dstPtr]
  | .rngFill => [.config, .srcLen, .dstPtr]
  | .encrypt =>
    [.config, .srcPtr, .srcLen, .keyPtr, .keyLen, .dstPtr] ++ (if (c.extractLsb 9 9).toNat = 1 then [.ivPtr] else [])
  | .decrypt => [.config, .srcPtr, .srcLen, .keyPtr, .keyLen, .dstPtr]

/-- The eight registers that a host write can set while idle, CMD aside (20_memory.md R84). -/
def argRegs : List Reg := [.config, .srcPtr, .srcLen, .keyPtr, .keyLen, .ivPtr, .dstPtr, .data]

/-- The registers that hold their value while busy, or that the offending write of a HazardWrite leaves undefined
(70_reset_and_hazards.md R275, R276): the same eight. -/
def steadyRegs : List Reg := [.config, .cmd, .srcPtr, .srcLen, .keyPtr, .keyLen, .ivPtr, .dstPtr]

/-- The register offset that a host line writes, none for a line that writes no register. -/
def writtenOffset : HostOp → Option Nat
  | .wr o _ => some o
  | _ => none

/-- `t` is `s` after a host read: the answer is at the head of `reads`, the line is taken, and no register and no byte
has changed (20_memory.md R83, 70_reset_and_hazards.md R276). -/
abbrev answered (s t : State) (rest : List HostOp) (r : HostRead) : Prop :=
  t.reads = r :: s.reads ∧ t.host = rest ∧ (∀ q, reg t q = reg s q) ∧ t.mem = s.mem

/-- A host line that exists and is not reset: a register access at a legal offset, a buffer access inside the buffer, or
a poll (20_memory.md R81, R82). -/
def ordinary (s : State) : HostOp → Prop
  | .wr o _ => o % 4 = 0 ∧ o ≤ 0x3C
  | .rd o => o % 4 = 0 ∧ o ≤ 0x3C
  | .sb a _ => a < s.bufSize.toNat
  | .lb a => a < s.bufSize.toNat
  | .poll => True
  | _ => False

/-- A host line that only reads, at an offset that exists. -/
def readOnly (s : State) : HostOp → Prop
  | .rd o => o % 4 = 0 ∧ o ≤ 0x3C
  | .lb a => a < s.bufSize.toNat
  | .poll => True
  | _ => False

end Sys2Proof.Claims

open Sys2Proof.Claims

/-! ### Encoding -/

/-- 30_encoding.md section 1, the table of the ten legal words (the spec marks its R125 as derived): each of its rows
decodes to its command. A sanity statement. -/
def Obligations.TableWordsDecode : Prop :=
  decodeTableWord 32 0x00000001 = some .readWord ∧ decodeTableWord 32 0x00000002 = some .writeWord ∧
  decodeTableWord 32 0x00000003 = some .transformEnc ∧ decodeTableWord 32 0x00000103 = some .transformDec ∧
  decodeTableWord 32 0x00000203 = some .transformEncIv ∧ decodeTableWord 32 0x00000303 = some .transformDecIv ∧
  decodeTableWord 32 0x00000004 = some .derive ∧ decodeTableWord 32 0x00000005 = some .rngFill ∧
  decodeTableWord 32 0x00000006 = some .encrypt ∧ decodeTableWord 32 0x00000007 = some .decrypt

/-- 30_encoding.md R124: a word decodes exactly when its fields are legal, exactly when it is one of the ten; and when an
illegal word is pending on the engine's turn, whatever else is wrong, the step posts IllegalCommand (STATUS 0x42),
clears RES_LEN and changes nothing else. -/
def Obligations.IllegalWordsEndAsIllegalCommand : Prop :=
  ∀ w : Word32,
    ((legal w ↔ ∃ i, decode w = .ok i) ∧ (legal w ↔ w ∈ legalWords)) ∧
      ∀ s : State, s.cmd = some w → engineTurn s = true → ¬ legal w → step s = .next (ended s 0x42#32)

/-- 30_encoding.md R128: decode by OP, DEC and IVP, total on every word. -/
def Obligations.DecodeByOpcode : Prop :=
  ∀ w : Word32,
    (¬ legal w → ∃ e, decode w = .error e) ∧
    (legal w → decode w = .ok (
      let op := (w.extractLsb 3 0).toNat
      if op = 1 then .readWord
      else if op = 2 then .writeWord
      else if op = 3 then
        (if w.getLsbD 9 then (if w.getLsbD 8 then .transformDecIv else .transformEncIv)
         else (if w.getLsbD 8 then .transformDec else .transformEnc))
      else if op = 4 then .derive
      else if op = 5 then .rngFill
      else if op = 6 then .encrypt
      else .decrypt))

/-- 30_encoding.md sections 1 and 3: decode and encode are inverse to each other. Every command survives the round trip,
and a word that decodes IS the word of what it decodes to, so no bit of a command word is dropped. -/
def Obligations.DecodeAndEncodeAgree : Prop :=
  (∀ i : Instr, decode (encode i) = .ok i) ∧ ∀ (w : Word32) (i : Instr), decode w = .ok i → encode i = w

/-- 30_encoding.md R129: the ten mnemonics, and no other string names a command. -/
def Obligations.MnemonicsNameTheWords : Prop :=
  ∀ (m : String) (w : Word32), assemble m = some w ↔
    (m, w) ∈ [("READ_WORD", 0x1#32), ("WRITE_WORD", 0x2#32), ("TRANSFORM.enc", 0x3#32), ("TRANSFORM.dec", 0x103#32),
      ("TRANSFORM.enc.iv", 0x203#32), ("TRANSFORM.dec.iv", 0x303#32), ("DERIVE", 0x4#32), ("RNG_FILL", 0x5#32),
      ("ENCRYPT", 0x6#32), ("DECRYPT", 0x7#32)]

/-! ### CONFIG -/

/-- 10_state.md R39: `configValid`, bit by bit, the bits of its mask, and what an invalid CONFIG does to every command. -/
def Obligations.ConfigValidity : Prop :=
  (∀ c : Word32, configValid c = true ↔
    ((c.extractLsb 1 0).toNat ≠ 3 ∧ (c.extractLsb 6 4).toNat ≤ 5 ∧ c.getLsbD 12 = false ∧
      (c.getLsbD 8 = true ∨ (c.extractLsb 1 0).toNat = 0) ∧
        ∀ n, (n = 2 ∨ n = 3 ∨ n = 7 ∨ n = 10 ∨ n = 11 ∨ (13 ≤ n ∧ n ≤ 31)) → c.getLsbD n = false)) ∧
  (∀ n, configReserved.getLsbD n = true ↔ (n = 2 ∨ n = 3 ∨ n = 7 ∨ n = 10 ∨ n = 11 ∨ (13 ≤ n ∧ n ≤ 31))) ∧
  ∀ (i : Instr) (s : State) (c : Word32), s.config = some c → configValid c = false →
    exec i s = .next (ended s 0x22#32)

/-- 00_scope.md section 3: the quantities of a valid CONFIG. `ws` is 1, 2 or 4, `ivLen` is 8 to 256, and the IV is a
power-of-two number of words, from 2 to 256, so the IV can always key the derivation. -/
def Obligations.ConfigQuantities : Prop :=
  ∀ c : Word32, configValid c = true →
    (wordSize c = 2 ^ (c.extractLsb 1 0).toNat ∧ wordSize c ∈ [1, 2, 4]) ∧
    (ivLength c = 8 * 2 ^ (c.extractLsb 6 4).toNat ∧ ivLength c ∈ [8, 16, 32, 64, 128, 256]) ∧
    (markerLen c = (c.extractLsb 8 8).toNat ∧ (markerLen c = 0 → wordSize c = 1)) ∧
    ivLength c % wordSize c = 0 ∧ ∃ k, 1 ≤ k ∧ k ≤ 8 ∧ ivLength c / wordSize c = 2 ^ k

/-! ### Reset, the invariant, the constant registers -/

/-- 70_reset_and_hazards.md R272: every register's reset value, as the host reads it, the reserved offsets, and the
buffer, every byte of which is undefined and reads as a fresh draw. The last line is what the CONFIG value means. -/
def Obligations.ResetValues : Prop :=
  hostReadReg State.reset 0x00 = 0x57430001#32 ∧
  (∀ r ∈ [Reg.config, .cmd, .status, .srcPtr, .srcLen, .keyPtr, .keyLen, .ivPtr, .dstPtr, .data, .resLen],
    reg State.reset r = some 0#32 ∧ hostReadReg State.reset (regOffset r) = 0#32) ∧
  (hostReadReg State.reset 0x30).toNat = Config.bufBytes ∧
  (∀ o ∈ [0x34, 0x38, 0x3C], hostReadReg State.reset o = 0#32) ∧
  (∀ a, Memory.read? State.reset.mem a = none ∧
    hostReadByte State.reset a = Config.draw8 State.reset.events .host a) ∧
  wordSize (configOf State.reset) = 1 ∧ ivLength (configOf State.reset) = 8 ∧ markerLen (configOf State.reset) = 0 ∧
    ivInjected (configOf State.reset) = false

/-- The invariant of the model (STATUS is a word of the table of 10_state.md section 3, BUF_BYTES is in its range, the
buffer is canonical and inside its size, registers are undefined only after a HazardWrite) holds after reset. -/
def Obligations.ResetMeetsTheInvariant : Prop := State.reset.Inv

/-- Every step, of the engine or of the host, from EVERY state that meets the invariant keeps it. -/
def Obligations.StepKeepsTheInvariant : Prop := ∀ s t : State, s.Inv → step s = .next t → t.Inv

/-- 10_state.md section 3, the three invariants below the STATUS table (the spec marks them as derived), and that every
reserved bit of STATUS reads 0. -/
def Obligations.StatusFieldsExclude : Prop :=
  ∀ s : State, s.Inv →
    (busy s = true → done s = false ∧ faulted s = false ∧ err s = 0 ∧ fcause s = 0) ∧
    (faulted s = true → busy s = false) ∧ (fcause s ≠ 0 ↔ faulted s = true) ∧
    (err s ≤ 6 ∧ fcause s ≤ 2) ∧
    ∀ n, n = 3 ∨ 12 ≤ n → s.status.getLsbD n = false

/-- 10_state.md R31 and R44: ID and BUFSIZE are constant. No step changes them, a host read of their offsets gives them
in every state, and a host write to them while idle changes no register and no byte. -/
def Obligations.ConstantRegisters : Prop :=
  ∀ s : State,
    (hostReadReg s 0x00 = 0x57430001#32 ∧ hostReadReg s 0x30 = s.bufSize) ∧
    (∀ t, step s = .next t → reg t .id = some 0x57430001#32 ∧ t.bufSize = s.bufSize) ∧
    ∀ (o : Nat) (v : Word32) (rest : List HostOp), o = 0x00 ∨ o = 0x30 → busy s = false → s.host = .wr o v :: rest →
      ∃ t, step s = .next t ∧ (∀ r, reg t r = reg s r) ∧ t.mem = s.mem

/-! ### The host's accesses -/

/-- 20_memory.md R83: what a host read of a register offset returns while idle, and that it has no side effect. -/
def Obligations.HostRegisterReads : Prop :=
  ∀ (s : State) (o : Nat) (rest : List HostOp), busy s = false → s.host = .rd o :: rest → o % 4 = 0 → o ≤ 0x3C →
    ∃ (t : State) (v : Word32), step s = .next t ∧ answered s t rest (.reg o v) ∧
      (∀ r x, regOffset r = o → reg s r = some x → v = x) ∧
      (∀ r, regOffset r = o → reg s r = none → v = Config.draw32 s.events o) ∧
      (o = 0x34 ∨ o = 0x38 ∨ o = 0x3C → v = 0#32)

/-- 20_memory.md R84 and R85: what a host write does while idle. An argument register takes the value, whether or not
FAULT is 1; a read-only register and a reserved offset ignore it; CMD is issued without any check, or ignored while
FAULT = 1. -/
def Obligations.HostRegisterWrites : Prop :=
  ∀ (s : State) (o : Nat) (v : Word32) (rest : List HostOp), busy s = false → s.host = .wr o v :: rest →
    o % 4 = 0 → o ≤ 0x3C →
    ∃ t, step s = .next t ∧ t.mem = s.mem ∧ t.host = rest ∧ t.reads = s.reads ∧
      (∀ r, r ∈ argRegs → regOffset r = o → reg t r = some v ∧ ∀ q, q ≠ r → reg t q = reg s q) ∧
      ((o = 0x00 ∨ o = 0x0C ∨ o = 0x2C ∨ o = 0x30 ∨ o = 0x34 ∨ o = 0x38 ∨ o = 0x3C) → ∀ q, reg t q = reg s q) ∧
      (o = 0x08 → faulted s = true → ∀ q, reg t q = reg s q) ∧
      (o = 0x08 → faulted s = false →
        t.cmd = some v ∧ t.status = 0x1#32 ∧ ∀ q, q ≠ .cmd → q ≠ .status → reg t q = reg s q)

/-- 20_memory.md R87: host accesses to one buffer byte while idle, whether or not FAULT is 1. -/
def Obligations.HostBufferAccesses : Prop :=
  ∀ (s : State) (a : Nat) (rest : List HostOp), busy s = false → a < s.bufSize.toNat →
    (s.host = .lb a :: rest → ∃ (t : State) (b : Byte), step s = .next t ∧ answered s t rest (.buf a b) ∧
      (∀ x, Memory.read? s.mem a = some x → b = x) ∧
      (Memory.read? s.mem a = none → b = Config.draw8 s.events .host a)) ∧
    ∀ b : Byte, s.host = .sb a b :: rest → ∃ t, step s = .next t ∧ t.host = rest ∧ t.reads = s.reads ∧
      (∀ r, reg t r = reg s r) ∧ Memory.read? t.mem a = some b ∧
      ∀ x, x ≠ a → Memory.read? t.mem x = Memory.read? s.mem x

/-- 20_memory.md R81 and R82: the accesses to an idle device that the model refuses, each by name, and no other host
line is refused. -/
def Obligations.RefusedAccesses : Prop :=
  ∀ (s : State) (op : HostOp) (rest : List HostOp), busy s = false → s.host = op :: rest →
    (step s = .refused .registerAccess ↔
      (∃ o, ((∃ v, op = .wr o v) ∨ op = .rd o) ∧ ¬ (o % 4 = 0 ∧ o ≤ 0x3C)) ∨ op = .badWidth .register) ∧
    (step s = .refused .bufferAccess ↔
      (∃ a, ((∃ b, op = .sb a b) ∨ op = .lb a) ∧ ¬ a < s.bufSize.toNat) ∨ op = .badWidth .buffer) ∧
    ((∃ t, step s = .next t) ∨ step s = .refused .registerAccess ∨ step s = .refused .bufferAccess)

/-- The model's reading (DEDUCED, log entry 7) of 20_memory.md section 1 beside 70_reset_and_hazards.md section 3: an
access that does not exist is refused on a busy device too, on the host's turn, before it could be a HazardWrite. -/
def Obligations.RefusedWhileBusy : Prop :=
  ∀ (s : State) (op : HostOp) (rest : List HostOp), busy s = true → engineTurn s = false → s.host = op :: rest →
    (step s = .refused .registerAccess ↔
      (∃ o, ((∃ v, op = .wr o v) ∨ op = .rd o) ∧ ¬ (o % 4 = 0 ∧ o ≤ 0x3C)) ∨ op = .badWidth .register) ∧
    (step s = .refused .bufferAccess ↔
      (∃ a, ((∃ b, op = .sb a b) ∨ op = .lb a) ∧ ¬ a < s.bufSize.toNat) ∨ op = .badWidth .buffer)

/-- 70_reset_and_hazards.md R275: a host write of any kind while busy. Ordered before the engine step (it is the host's
turn) it is the HazardWrite fault: STATUS 0x206, the command discarded, the buffer, DATA, RES_LEN and the written
register undefined, every other register as it was, and a CMD write after it ignored. Ordered after it (it is the
engine's turn), the engine step comes first and the write is still to be performed on an idle device. -/
def Obligations.HazardWriteFault : Prop :=
  ∀ (s : State) (op : HostOp) (rest : List HostOp), busy s = true → s.host = op :: rest →
    ((∃ o v, op = .wr o v ∧ o % 4 = 0 ∧ o ≤ 0x3C) ∨ ∃ a b, op = .sb a b ∧ a < s.bufSize.toNat) →
    (engineTurn s = false → ∃ t, step s = .next t ∧ (∀ a, Memory.read? t.mem a = none) ∧
      (∀ r, reg t r =
        if r = .status then some 0x206#32
        else if r = .data ∨ r = .resLen then none
        else if r ∈ steadyRegs ∧ writtenOffset op = some (regOffset r) then none
        else reg s r) ∧
      engineTurn t = false ∧ t.host = rest ∧ t.reads = s.reads ∧
      ∀ v rest', rest = .wr 0x08 v :: rest' → ∃ u, step t = .next u ∧ ∀ r, reg u r = reg t r) ∧
    (engineTurn s = true → ∃ t, step s = .next t ∧ busy t = false ∧ t.host = op :: rest)

/-- 70_reset_and_hazards.md R276: host reads while busy, when it is the host's turn, change no state of the device; each
returns what the rule's list says for its offset. -/
def Obligations.ReadsWhileBusy : Prop :=
  ∀ (s : State) (rest : List HostOp), busy s = true → engineTurn s = false →
    (∀ o, s.host = .rd o :: rest → o % 4 = 0 → o ≤ 0x3C →
      ∃ (t : State) (v : Word32), step s = .next t ∧ answered s t rest (.reg o v) ∧
        (o = 0x0C → v = s.status ∧ v.getLsbD 0 = true) ∧ (o = 0x00 → v = 0x57430001#32) ∧ (o = 0x30 → v = s.bufSize) ∧
        (∀ r x, r ∈ steadyRegs → regOffset r = o → reg s r = some x → v = x) ∧
        (o = 0x28 ∨ o = 0x2C → v = Config.draw32 s.events o) ∧ (o = 0x34 ∨ o = 0x38 ∨ o = 0x3C → v = 0#32)) ∧
    ∀ a, s.host = .lb a :: rest → a < s.bufSize.toNat →
      ∃ t, step s = .next t ∧ answered s t rest (.buf a (Config.draw8 s.events .host a))

/-- 30_encoding.md section 4, the polling loop (`poll` as a line of the host is the model's form of it, log entry 11): a
poll reads STATUS; it stays the host's next line while bit 0 of the value read is 1, and is done when it is 0. -/
def Obligations.PollReadsStatus : Prop :=
  ∀ (s : State) (rest : List HostOp), engineTurn s = false → s.host = .poll :: rest →
    ∃ t, step s = .next t ∧ t.reads = .reg 0x0C s.status :: s.reads ∧ (∀ r, reg t r = reg s r) ∧ t.mem = s.mem ∧
      t.host = if s.status.getLsbD 0 then .poll :: rest else rest

/-- 30_encoding.md section 4, the pseudo-line `cfg`: the CONFIG value it writes has the word size, the IV length, the
marker flag and the IV source that the line names, and is valid exactly when the words are bytes or a marker is used. -/
def Obligations.CfgLineValue : Prop :=
  ∀ W ∈ [1, 2, 4], ∀ L ∈ [8, 16, 32, 64, 128, 256], ∀ K ∈ [0, 1], ∀ S ∈ [0, 1],
    lineCfg W L K S = [.wr 0x04 (cfgValue W L K S)] ∧ wordSize (cfgValue W L K S) = W ∧
      ivLength (cfgValue W L K S) = L ∧ markerLen (cfgValue W L K S) = K ∧
        (ivInjected (cfgValue W L K S) = true ↔ S = 1) ∧
          (configValid (cfgValue W L K S) = true ↔ W = 1 ∨ K = 1)

/-- 30_encoding.md section 4, the pseudo-lines `cmd` and `run`, with 60_exceptions.md section 1: `cmd M` on an idle
device without a fault makes `M` the pending command and changes nothing else; and when the engine's turn comes, in any
state with that command still pending, the step executes `M`. -/
def Obligations.IssuedCommandRuns : Prop :=
  ∀ (i : Instr) (s : State) (rest : List HostOp), busy s = false → faulted s = false →
    s.host = lineCmd i ++ rest →
    (∃ t, step s = .next t ∧ t.cmd = some (encode i) ∧ t.status = 0x1#32 ∧ t.host = rest ∧ t.mem = s.mem ∧
      ∀ r, r ≠ .cmd → r ≠ .status → reg t r = reg s r) ∧
    (∀ t : State, t.cmd = some (encode i) → engineTurn t = true → step t = exec i t) ∧
    lineRun i = [.wr 0x08 (encode i), .poll]

/-- 30_encoding.md section 4, the pseudo-lines `sbs` and `lbs` on an idle device: `n` byte writes, in ascending order,
leave the buffer as one write of the bytes does; `n` byte reads return the bytes of the region, each undefined one as a
draw, and change no register and no byte. -/
def Obligations.HostByteLines : Prop :=
  ∀ (s : State) (o : Nat) (rest : List HostOp), busy s = false →
    (∀ bs : List Byte, o + bs.length ≤ s.bufSize.toNat → s.host = lineSbs o bs ++ rest →
      ∃ t, core.run bs.length s = .next t ∧ t.host = rest ∧ t.reads = s.reads ∧ (∀ r, reg t r = reg s r) ∧
        (∀ k, k < bs.length → Memory.read? t.mem (o + k) = bs[k]?) ∧
        ∀ a, a < o ∨ o + bs.length ≤ a → Memory.read? t.mem a = Memory.read? s.mem a) ∧
    ∀ n : Nat, o + n ≤ s.bufSize.toNat → s.host = lineLbs o n ++ rest →
      ∃ t, core.run n s = .next t ∧ t.host = rest ∧ (∀ r, reg t r = reg s r) ∧ t.mem = s.mem ∧
        ∃ bs : List Byte, bs.length = n ∧ (∀ k x, k < n → Memory.read? s.mem (o + k) = some x → bs[k]? = some x) ∧
          t.reads = ((List.range n).map fun k => HostRead.buf (o + k) (bs.getD k 0#8)).reverse ++ s.reads

/-- 70_reset_and_hazards.md R270 and R271: reset, asserted at any time, pending command or not: every register at its
reset value, every byte undefined, no command pending; and no other step of an idle device clears FAULT. -/
def Obligations.ResetLine : Prop :=
  (∀ (s : State) (rest : List HostOp), engineTurn s = false → s.host = .rst :: rest →
    ∃ t, step s = .next t ∧ reg t .id = some 0x57430001#32 ∧ reg t .bufSize = some s.bufSize ∧
      (∀ r, r ≠ .id → r ≠ .bufSize → reg t r = some 0#32) ∧ (∀ a, Memory.read? t.mem a = none) ∧
      (busy t = false ∧ engineTurn t = false) ∧ t.host = rest ∧ t.reads = s.reads) ∧
  ∀ s t : State, busy s = false → faulted s = true → step s = .next t → faulted t = false → ∃ rest, s.host = .rst :: rest

/-- 70_reset_and_hazards.md section 1, after reset the device is idle and waits for the first write to CMD: only a CMD
write makes an idle device busy. The last clause is the model's choice (DESIGN CHOICE, log entry 16), not the spec's: an
idle device with no host line left answers the very same state, and the step is not counted. -/
def Obligations.IdleDeviceWaits : Prop :=
  busy State.reset = false ∧
  (∀ s t : State, busy s = false → step s = .next t → busy t = true → ∃ v rest, s.host = .wr 0x08 v :: rest) ∧
  ∀ s : State, busy s = false → s.host = [] → step s = .next s

/-- 60_exceptions.md R249: an error is cleared by the next issue; a fault is cleared only by reset: no command, register
write or read clears FAULT. -/
def Obligations.FaultClearedOnlyByReset : Prop :=
  (∀ s t : State, faulted s = true → busy s = false → step s = .next t →
    ((∃ rest, s.host = .rst :: rest) → faulted t = false) ∧
    ((∀ rest, s.host ≠ .rst :: rest) → faulted t = true ∧ t.status = s.status)) ∧
  ∀ (s : State) (v : Word32) (rest : List HostOp), busy s = false → faulted s = false → s.host = .wr 0x08 v :: rest →
    ∃ t, step s = .next t ∧ err t = 0 ∧ done t = false ∧ busy t = true

/-! ### The engine step -/

/-- 60_exceptions.md section 1, the engine step: when a command is pending and no host access comes first (log entry 2),
a step is exec of the decoded command word, with nothing added around it. -/
def Obligations.StepRunsTheDecodedCommand : Prop :=
  ∀ (s : State) (w : Word32) (i : Instr), busy s = true → (s.delay = 0 ∨ s.host = []) → s.cmd = some w →
    decode w = .ok i → step s = exec i s

/-- 60_exceptions.md section 1, the three outcomes: every command, in every state, answers a next state, and its outcome
is exactly one of success, an error that wrote nothing but STATUS and RES_LEN, and a fault that wrote nothing but them. -/
def Obligations.EveryCommandHasOneOutcome : Prop :=
  ∀ (i : Instr) (s : State), ∃ t, exec i s = .next t ∧ (busy t = false ∧ done t = true) ∧
    ((t.status = 0x2#32 ∧ faulted t = false ∧ err t = 0) ∨
     (t = ended s t.status ∧ faulted t = false ∧ 1 ≤ err t ∧ err t ≤ 6) ∨
     (t = ended s t.status ∧ faulted t = true ∧ err t = 0 ∧ fcause t = 1))

/-- 60_exceptions.md R243: what an error completion writes (STATUS `0x2 | (e << 4)`, RES_LEN 0), for every command that
ends so, and that nothing else changes. -/
def Obligations.ErrorCompletion : Prop :=
  ∀ (i : Instr) (s t : State), exec i s = .next t → faulted t = false → err t ≠ 0 →
    t.status = 0x2#32 ||| (BitVec.ofNat 32 (err t) <<< 4) ∧ t.resLen = some 0#32 ∧ t.mem = s.mem ∧
      (∀ r, r ≠ .status → r ≠ .resLen → reg t r = reg s r) ∧
      busy t = false ∧ done t = true ∧ fcause t = 0

/-- 60_exceptions.md R244: what an OutOfRange completion writes (STATUS 0x106, RES_LEN 0), for every command that ends
so; and that from then on, while STATUS is 0x106 and no reset comes, every CMD write is ignored and every other host
access still works. -/
def Obligations.FaultCompletion : Prop :=
  (∀ (i : Instr) (s t : State), exec i s = .next t → faulted t = true →
    t.status = 0x106#32 ∧ t.resLen = some 0#32 ∧ t.mem = s.mem ∧ ∀ r, r ≠ .status → r ≠ .resLen → reg t r = reg s r) ∧
  ∀ (s : State) (op : HostOp) (rest : List HostOp), s.status = 0x106#32 → s.host = op :: rest → ordinary s op →
    ∃ t, step s = .next t ∧ t.status = 0x106#32 ∧ t.host = rest ∧
      ((∃ v, op = .wr 0x08 v) → (∀ r, reg t r = reg s r) ∧ t.mem = s.mem) ∧
      (∀ r v, r ∈ argRegs → op = .wr (regOffset r) v → reg t r = some v) ∧
      (∀ a b, op = .sb a b → Memory.read? t.mem a = some b) ∧
      (∀ r x, op = .rd (regOffset r) → reg s r = some x → answered s t rest (.reg (regOffset r) x)) ∧
      ∀ a b, op = .lb a → Memory.read? s.mem a = some b → answered s t rest (.buf a b)

/-- The register frame of every command (10_state.md R45, 30_encoding.md section 2): a command writes STATUS and RES_LEN,
READ_WORD also DATA, and no other register; the host's side is untouched. It also says what STATUS can become, and that
RES_LEN is defined. -/
def Obligations.RegisterFrame : Prop :=
  ∀ (i : Instr) (s t : State), exec i s = .next t →
    (∀ r, r ≠ .status → r ≠ .resLen → ¬ (i = .readWord ∧ r = .data) → reg t r = reg s r) ∧
    t.status ∈ [0x2#32, 0x12#32, 0x22#32, 0x32#32, 0x42#32, 0x52#32, 0x62#32, 0x106#32] ∧ t.resLen ≠ none ∧
    t.host = s.host ∧ t.reads = s.reads ∧ t.delay = s.delay ∧ t.events = s.events + 1

/-- The memory frame of every command (40_word_codec.md to 43_framing.md): every byte outside the region the command
stores to, whose address and length are the ones its meaning computes, is unchanged; a command that does not succeed
changes no byte at all, and READ_WORD none. -/
def Obligations.MemoryFrame : Prop :=
  ∀ (i : Instr) (s t : State), exec i s = .next t →
    (∀ a, a < (storeRegion i s).ptr ∨ (storeRegion i s).ptr + (storeRegion i s).len ≤ a →
      Memory.read? t.mem a = Memory.read? s.mem a) ∧
    (t.status ≠ 0x2#32 → t.mem = s.mem) ∧ (i = .readWord → t.mem = s.mem)

/-- 20_memory.md section 2, undefined bytes: a command that succeeds leaves every byte of its destination region defined,
and the region lies inside the buffer. -/
def Obligations.StoredBytesAreDefined : Prop :=
  ∀ (i : Instr) (s t : State), exec i s = .next t → t.status = 0x2#32 →
    ∀ a, (storeRegion i s).ptr ≤ a → a < (storeRegion i s).ptr + (storeRegion i s).len →
      a < s.bufSize.toNat ∧ Memory.read? t.mem a ≠ none

/-- 20_memory.md section 3, no in-place mutation: no command changes a byte of a region it reads as an input beside a
destination, whatever its outcome. -/
def Obligations.InputsAreNeverMutated : Prop :=
  ∀ (i : Instr) (s t : State), exec i s = .next t →
    ∀ r ∈ inputRegions i s, ∀ a, r.ptr ≤ a → a < r.ptr + r.len → Memory.read? t.mem a = Memory.read? s.mem a

/-- 30_encoding.md section 2, "A register a command does not read has no effect on it": changing such a register before
the command changes nothing after it but that register, under the same draws. The two runs are at one event, so both get
the same free values (DESIGN CHOICE, log entry 3, unsafe for two runs): for RNG_FILL, for ENCRYPT with IVSRC = 0 and for
undefined bytes the statement says nothing of a device that draws anew. READ_WORD with DATA, which it overwrites, is
left to ReadWordResult. -/
def Obligations.UnreadRegistersHaveNoEffect : Prop :=
  ∀ (i : Instr) (s t : State) (c : Word32) (r : Reg) (v : Word32), s.config = some c → r ∈ argRegs →
    r ∉ readsRegs i c → ¬ (i = .readWord ∧ r = .data) → exec i s = .next t →
      exec i (setReg s r (some v)) = .next (setReg t r (some v))

/-! ### The commands -/

/-- 40_word_codec.md R152: READ_WORD. `events` is the model's own count of steps (log entry 3). -/
def Obligations.ReadWordResult : Prop :=
  ∀ (s : State) (c a : Word32), s.config = some c → s.srcPtr = some a →
    (configValid c = true → inside s (a.toNat, wordSize c) →
      exec .readWord s = .next { s with
        data := some (BitVec.ofNat 32 (le (memRead s .src a.toNat (wordSize c)))),
        resLen := some (BitVec.ofNat 32 (wordSize c)), status := 0x2#32, events := s.events + 1 }) ∧
    (¬ (configValid c = true ∧ inside s (a.toNat, wordSize c)) →
      exec .readWord s = .next (ended s (if configValid c = false then 0x22#32 else 0x106#32)))

/-- 40_word_codec.md R153: WRITE_WORD. -/
def Obligations.WriteWordResult : Prop :=
  ∀ (s : State) (c a v : Word32), s.config = some c → s.dstPtr = some a → s.data = some v →
    (configValid c = true → inside s (a.toNat, wordSize c) →
      exec .writeWord s =
        .next (stored s a.toNat (bytesLe (v.toNat % 2 ^ (8 * wordSize c)) (wordSize c)) (wordSize c))) ∧
    (¬ (configValid c = true ∧ inside s (a.toNat, wordSize c)) →
      exec .writeWord s = .next (ended s (if configValid c = false then 0x22#32 else 0x106#32)))

/-- 42_modadd_transform.md R190 and R191: the four forms of TRANSFORM. -/
def Obligations.TransformResult : Prop :=
  ∀ (i : Instr) (dec ivp : Bool),
    (i, dec, ivp) ∈ [(Instr.transformEnc, false, false), (.transformDec, true, false), (.transformEncIv, false, true),
      (.transformDecIv, true, true)] →
    ∀ (s : State) (c sp sl kp kl vp dp : Word32), s.config = some c → s.srcPtr = some sp → s.srcLen = some sl →
      s.keyPtr = some kp → s.keyLen = some kl → (ivp = true → s.ivPtr = some vp) → s.dstPtr = some dp →
      let ws := wordSize c
      let inputs : List (Nat × Nat) :=
        [(sp.toNat, sl.toNat), (kp.toNat, kl.toNat)] ++ (if ivp then [(vp.toNat, ivLength c)] else [])
      let dst := (dp.toNat, sl.toNat)
      let V := if ivp then some (memRead s .iv vp.toNat (ivLength c)) else none
      let Y := transform ws (memRead s .src sp.toNat sl.toNat) (memRead s .key kp.toNat kl.toNat) V dec
      let checks := configValid c = true ∧ goodKey ws kl.toNat ∧ sl.toNat % ws = 0 ∧ (∀ r ∈ inputs, inside s r) ∧
        inside s dst ∧ ∀ r ∈ inputs, ¬ meets dst r
      (checks → exec i s = .next (stored s dp.toNat Y sl.toNat)) ∧
      (¬ checks → exec i s = .next (ended s (
        if configValid c = false then 0x22#32
        else if ¬ goodKey ws kl.toNat then 0x12#32
        else if sl.toNat % ws ≠ 0 then 0x52#32
        else if ∃ r ∈ inputs, ¬ inside s r then 0x106#32
        else if ¬ inside s dst then 0x106#32
        else 0x62#32)))

/-- 41_iv_deriver.md R172: DERIVE. -/
def Obligations.DeriveResult : Prop :=
  ∀ (s : State) (c kp kl vp dp : Word32), s.config = some c → s.keyPtr = some kp → s.keyLen = some kl →
    s.ivPtr = some vp → s.dstPtr = some dp →
    let ws := wordSize c
    let inputs : List (Nat × Nat) := [(kp.toNat, kl.toNat), (vp.toNat, ivLength c)]
    let dst := (dp.toNat, kl.toNat)
    let DK := transform ws (memRead s .key kp.toNat kl.toNat) (memRead s .iv vp.toNat (ivLength c)) none false
    let checks := configValid c = true ∧ goodKey ws kl.toNat ∧ (∀ r ∈ inputs, inside s r) ∧ inside s dst ∧
      ∀ r ∈ inputs, ¬ meets dst r
    (checks → exec .derive s = .next (stored s dp.toNat DK kl.toNat)) ∧
    (¬ checks → exec .derive s = .next (ended s (
      if configValid c = false then 0x22#32
      else if ¬ goodKey ws kl.toNat then 0x12#32
      else if ∃ r ∈ inputs, ¬ inside s r then 0x106#32
      else if ¬ inside s dst then 0x106#32
      else 0x62#32)))

/-- 43_framing.md R205: RNG_FILL. Its bytes are free values (`Config.draw8`), about which nothing is said. -/
def Obligations.RngFillResult : Prop :=
  ∀ (s : State) (c n0 dp : Word32), s.config = some c → s.srcLen = some n0 → s.dstPtr = some dp →
    let n := n0.toNat + (wordSize c - n0.toNat % wordSize c) % wordSize c
    let checks := configValid c = true ∧ inside s (dp.toNat, n)
    (checks → exec .rngFill s =
      .next (stored s dp.toNat ((List.range n).map fun t => Config.draw8 s.events .random t) n)) ∧
    (¬ checks → exec .rngFill s = .next (ended s (if configValid c = false then 0x22#32 else 0x106#32)))

/-- 43_framing.md R206: ENCRYPT. -/
def Obligations.EncryptResult : Prop :=
  ∀ (s : State) (c sp sl kp kl vp dp : Word32), s.config = some c → s.srcPtr = some sp → s.srcLen = some sl →
    s.keyPtr = some kp → s.keyLen = some kl → (c.getLsbD 9 = true → s.ivPtr = some vp) → s.dstPtr = some dp →
    let ws := wordSize c
    let m := markerLen c
    let ivLen := ivLength c
    let inputs : List (Nat × Nat) :=
      [(sp.toNat, sl.toNat), (kp.toNat, kl.toNat)] ++ (if c.getLsbD 9 then [(vp.toNat, ivLen)] else [])
    let P := memRead s .src sp.toNat sl.toNat
    let K := memRead s .key kp.toNat kl.toNat
    let V := if c.getLsbD 9 then memRead s .iv vp.toNat ivLen
      else (List.range ivLen).map fun t => Config.draw8 s.events .random t
    let pc := (ws - sl.toNat % ws) % ws
    let DK := deriveKey ws K V
    let B := transform ws (P ++ List.replicate pc 0x20#8) DK (some V) false
    let n := m + ivLen + sl.toNat + pc
    let dst := (dp.toNat, n)
    let checks := configValid c = true ∧ goodKey ws kl.toNat ∧ (∀ r ∈ inputs, inside s r) ∧ inside s dst ∧
      ∀ r ∈ inputs, ¬ meets dst r
    (checks → exec .encrypt s =
      .next (stored s dp.toNat ((if m = 1 then [BitVec.ofNat 8 pc] else []) ++ V ++ B) n)) ∧
    (¬ checks → exec .encrypt s = .next (ended s (
      if configValid c = false then 0x22#32
      else if ¬ goodKey ws kl.toNat then 0x12#32
      else if ∃ r ∈ inputs, ¬ inside s r then 0x106#32
      else if ¬ inside s dst then 0x106#32
      else 0x62#32)))

/-- 43_framing.md R207 and R208: DECRYPT, with the malformed frames. -/
def Obligations.DecryptResult : Prop :=
  ∀ (s : State) (c sp sl kp kl dp : Word32), s.config = some c → s.srcPtr = some sp → s.srcLen = some sl →
    s.keyPtr = some kp → s.keyLen = some kl → s.dstPtr = some dp →
    let ws := wordSize c
    let m := markerLen c
    let ivLen := ivLength c
    let inputs : List (Nat × Nat) := [(sp.toNat, sl.toNat), (kp.toNat, kl.toNat)]
    let S := memRead s .src sp.toNat sl.toNat
    let K := memRead s .key kp.toNat kl.toNat
    let pc := if m = 1 then (S.headD 0#8).toNat else 0
    let V := (S.drop m).take ivLen
    let B := S.drop (m + ivLen)
    let bad := sl.toNat < m + ivLen ∨ B.length % ws ≠ 0 ∨ pc ≥ ws ∨ pc > B.length
    let Q := transform ws B (deriveKey ws K V) (some V) true
    let n := B.length - pc
    let dst := (dp.toNat, n)
    let checks := configValid c = true ∧ goodKey ws kl.toNat ∧ (∀ r ∈ inputs, inside s r) ∧ ¬ bad ∧ inside s dst ∧
      ∀ r ∈ inputs, ¬ meets dst r
    (checks → exec .decrypt s = .next (stored s dp.toNat (Q.take n) n)) ∧
    (¬ checks → exec .decrypt s = .next (ended s (
      if configValid c = false then 0x22#32
      else if ¬ goodKey ws kl.toNat then 0x12#32
      else if ∃ r ∈ inputs, ¬ inside s r then 0x106#32
      else if bad then 0x32#32
      else if ¬ inside s dst then 0x106#32
      else 0x62#32)))

/-! ### Regions, bytes and words -/

/-- 20_memory.md section 3: a region is in range when it touches only buffer bytes, without wrap-around, and two regions
overlap when they share a byte. -/
def Obligations.RangeAndOverlap : Prop :=
  (∀ (s : State) (r : Region), inRange s r = true ↔ ∀ a, r.ptr ≤ a → a < r.ptr + r.len → a < s.bufSize.toNat) ∧
  ∀ r q : Region, overlap r q = true ↔ ∃ a, (r.ptr ≤ a ∧ a < r.ptr + r.len) ∧ (q.ptr ≤ a ∧ a < q.ptr + q.len)

/-- 20_memory.md section 4 (that the lowest offset holds the least significant byte is the spec's own reading of
"little-endian", its K1): the value of a byte sequence, the bytes of a value, and that the one undoes the other. -/
def Obligations.LittleEndianWords : Prop :=
  (∀ S : List Byte, le S = ((List.range S.length).map fun t => (S.getD t 0#8).toNat * 2 ^ (8 * t)).sum) ∧
  (∀ v n t : Nat, t < n → (bytesLe v n)[t]? = some (BitVec.ofNat 8 (v / 2 ^ (8 * t) % 256))) ∧
  (∀ v n : Nat, (bytesLe v n).length = n ∧ le (bytesLe v n) = v % 2 ^ (8 * n)) ∧
  ∀ S : List Byte, bytesLe (le S) S.length = S

/-- 40_word_codec.md section 2 (the spec marks R154 as derived): READ_WORD at the offset WRITE_WORD wrote, with the same
CONFIG, gives the value modulo `R`, whatever the alignment. -/
def Obligations.WrittenWordReadsBack : Prop :=
  ∀ (s t : State) (c a v : Word32), s.config = some c → s.dstPtr = some a → s.data = some v →
    exec .writeWord s = .next t → t.status = 0x2#32 →
    ∃ u, exec .readWord { t with srcPtr := some a } = .next u ∧ u.status = 0x2#32 ∧
      u.data = some (BitVec.ofNat 32 (v.toNat % 2 ^ (8 * wordSize c)))

/-- 20_memory.md section 4, mixed-width views (R93, which the spec marks as derived): after WRITE_WORD, each byte of the
word is the byte of its value, lowest offset first. -/
def Obligations.WrittenWordBytes : Prop :=
  ∀ (s t : State) (c a v : Word32), s.config = some c → s.dstPtr = some a → s.data = some v →
    exec .writeWord s = .next t → t.status = 0x2#32 →
    ∀ k, k < wordSize c → Memory.read? t.mem (a.toNat + k) = some (v.extractLsb' (8 * k) 8)

/-! ### The transform, the derivation, the frame -/

/-- 42_modadd_transform.md R182 to R185: the transform, word by word. The output is as long as the input, and its word
`i` is the sum, or the non-negative difference, modulo `R`, of input word `i`, key word `i mod kw` and IV word
`i mod ivw` (0 when the IV is absent). -/
def Obligations.TransformWords : Prop :=
  ∀ (ws : Nat) (X K : List Byte) (V : Option (List Byte)) (dec : Bool), ws ∈ [1, 2, 4] → X.length % ws = 0 →
    goodKey ws K.length → (∀ S, V = some S → goodKey ws S.length) →
    (transform ws X K V dec).length = X.length ∧
    ∀ i, i < X.length / ws →
      let x := codecRead ws X (i * ws)
      let k := codecRead ws K (i % (K.length / ws) * ws)
      let v := match V with
        | some S => codecRead ws S (i % (S.length / ws) * ws)
        | none => 0
      let y := codecRead ws (transform ws X K V dec) (i * ws)
      (dec = false → y = (x + k + v) % 2 ^ (8 * ws)) ∧
      (dec = true → (y : Int) = ((x : Int) - k - v) % 2 ^ (8 * ws))

/-- 42_modadd_transform.md section 1, the inverse law (R188, which the spec marks as derived): decrypting what was
encrypted, and encrypting what was decrypted, gives the input back, for every word size, key and IV. -/
def Obligations.TransformInverse : Prop :=
  ∀ (ws : Nat) (X K : List Byte) (V : Option (List Byte)) (dec : Bool), ws ∈ [1, 2, 4] → X.length % ws = 0 →
    goodKey ws K.length → (∀ S, V = some S → goodKey ws S.length) →
    transform ws (transform ws X K V dec) K V (!dec) = X

/-- 41_iv_deriver.md section 1 (R171, which the spec marks as derived): the derived key is as long as the key, its word
`j` is `(K_j + V_(j mod ivw)) mod R`, and an all-zero IV gives the key itself. -/
def Obligations.DerivedKeyWords : Prop :=
  ∀ (ws : Nat) (K V : List Byte), ws ∈ [1, 2, 4] → goodKey ws K.length → goodKey ws V.length →
    (deriveKey ws K V).length = K.length ∧
    (∀ j, j < K.length / ws → codecRead ws (deriveKey ws K V) (j * ws) =
      (codecRead ws K (j * ws) + codecRead ws V (j % (V.length / ws) * ws)) % 2 ^ (8 * ws)) ∧
    ((∀ b ∈ V, b = 0#8) → deriveKey ws K V = K)

/-- 43_framing.md R201 and R203: padding completes the last word (with filler bytes 0x20, section 1), the body is as long
as the padded plaintext, and the frame is the marker, the IV and the body, in that order. -/
def Obligations.PaddingAndFrame : Prop :=
  ∀ (ws : Nat) (P V B : List Byte) (m pc : Nat), ws ∈ [1, 2, 4] → m ≤ 1 → pc < ws →
    (padCount ws P.length = (ws - P.length % ws) % ws ∧ padCount ws P.length < ws) ∧
    ((pad ws P).length = roundup P.length ws ∧ (pad ws P).length % ws = 0) ∧
    (∀ (K : List Byte) (U : Option (List Byte)), (transform ws (pad ws P) K U false).length = roundup P.length ws) ∧
    (pad ws P).take P.length = P ∧ (∀ b ∈ (pad ws P).drop P.length, b = 0x20#8) ∧
    (frame m pc V B).length = m + V.length + B.length ∧
    (m = 1 → ((frame m pc V B).headD 0#8).toNat = pc) ∧
    slice (frame m pc V B) m (m + V.length) = V ∧
    slice (frame m pc V B) (m + V.length) (frame m pc V B).length = B

/-- 43_framing.md section 3, the closed form of an ENCRYPT body (R209, which the spec marks as derived): the IV enters
each body word twice, once through the derived key and once directly. -/
def Obligations.EncryptBodyWords : Prop :=
  ∀ (ws : Nat) (P K V : List Byte), ws ∈ [1, 2, 4] → goodKey ws K.length → goodKey ws V.length →
    ∀ i, i < (pad ws P).length / ws →
      codecRead ws (transform ws (pad ws P) (deriveKey ws K V) (some V) false) (i * ws) =
        (codecRead ws (pad ws P) (i * ws) + codecRead ws K (i % (K.length / ws) * ws) +
          codecRead ws V (i % (K.length / ws) % (V.length / ws) * ws) +
            codecRead ws V (i % (V.length / ws) * ws)) % 2 ^ (8 * ws)

/-- 43_framing.md section 3, the round trip (R210, which the spec marks as derived). ENCRYPT succeeds and writes a frame;
later DECRYPT runs with the same CONFIG on a region that holds that frame, with the same key bytes, every region in
range, the destination apart from the inputs. Then DECRYPT succeeds, RES_LEN is the plaintext's length, and the bytes it
writes are the plaintext that ENCRYPT read. -/
def Obligations.EncryptThenDecrypt : Prop :=
  ∀ (s t s' : State) (c sp sl kp kl dp n sp' kp' dp' : Word32), s.config = some c → s.srcPtr = some sp →
    s.srcLen = some sl → s.keyPtr = some kp → s.keyLen = some kl → s.dstPtr = some dp →
    exec .encrypt s = .next t → t.status = 0x2#32 → t.resLen = some n →
    s'.config = some c → s'.srcPtr = some sp' → s'.srcLen = some n → s'.keyPtr = some kp' → s'.keyLen = some kl →
    s'.dstPtr = some dp' →
    inside s' (sp'.toNat, n.toNat) → inside s' (kp'.toNat, kl.toNat) → inside s' (dp'.toNat, sl.toNat) →
    ¬ meets (dp'.toNat, sl.toNat) (sp'.toNat, n.toNat) → ¬ meets (dp'.toNat, sl.toNat) (kp'.toNat, kl.toNat) →
    (∀ j, j < n.toNat → Memory.read? s'.mem (sp'.toNat + j) = Memory.read? t.mem (dp.toNat + j)) →
    memRead s' .key kp'.toNat kl.toNat = memRead s .key kp.toNat kl.toNat →
    ∃ u, exec .decrypt s' = .next u ∧ u.status = 0x2#32 ∧ u.resLen = some sl ∧
      ∀ j, j < sl.toNat →
        Memory.read? u.mem (dp'.toNat + j) = (memRead s .src sp.toNat sl.toNat)[j]?

/-- 43_framing.md section 3, determinism under a fixed IV (the second half of R213): two ENCRYPTs with IVSRC = 1, in any
two states, of the same defined plaintext, key and IV bytes under one CONFIG, write the same frame, whatever the free
values of the two steps are. -/
def Obligations.EncryptDeterministicUnderFixedIv : Prop :=
  ∀ (s t s' t' : State) (c sp kp vp dp sp' kp' vp' dp' sl kl : Word32) (P K V : List Byte),
    c.getLsbD 9 = true → s.config = some c → s'.config = some c → s.srcLen = some sl → s'.srcLen = some sl →
    s.keyLen = some kl → s'.keyLen = some kl → s.srcPtr = some sp → s'.srcPtr = some sp' → s.keyPtr = some kp →
    s'.keyPtr = some kp' → s.ivPtr = some vp → s'.ivPtr = some vp' → s.dstPtr = some dp → s'.dstPtr = some dp' →
    (P.length = sl.toNat ∧ ∀ j, j < sl.toNat →
      Memory.read? s.mem (sp.toNat + j) = P[j]? ∧ Memory.read? s'.mem (sp'.toNat + j) = P[j]?) →
    (K.length = kl.toNat ∧ ∀ j, j < kl.toNat →
      Memory.read? s.mem (kp.toNat + j) = K[j]? ∧ Memory.read? s'.mem (kp'.toNat + j) = K[j]?) →
    (V.length = ivLength c ∧ ∀ j, j < ivLength c →
      Memory.read? s.mem (vp.toNat + j) = V[j]? ∧ Memory.read? s'.mem (vp'.toNat + j) = V[j]?) →
    exec .encrypt s = .next t → exec .encrypt s' = .next t' → t.status = 0x2#32 → t'.status = 0x2#32 →
    t.resLen = t'.resLen ∧
      ∀ j, j < (encryptDst s).len → Memory.read? t.mem (dp.toNat + j) = Memory.read? t'.mem (dp'.toNat + j)

/-- 43_framing.md section 3, no integrity (R211) and section 2: whether DECRYPT succeeds, and how many bytes it writes,
does not depend on any byte outside the frame, the key's bytes included, under the same draws. The two runs are at one
event, so an undefined marker byte of the frame is the same free value in both (DESIGN CHOICE, log entry 3, unsafe for
two runs); where the marker byte is defined, or CONFIG has none, no draw is involved. -/
def Obligations.DecryptCannotTellAWrongKey : Prop :=
  ∀ (s t : State) (m : Memory), exec .decrypt s = .next t →
    (∀ a, (srcRegion s).ptr ≤ a → a < (srcRegion s).ptr + (srcRegion s).len →
      Memory.read? m a = Memory.read? s.mem a) →
    ∃ t', exec .decrypt { s with mem := m } = .next t' ∧ t'.status = t.status ∧ t'.resLen = t.resLen

/-! ### Progress -/

/-- 70_reset_and_hazards.md section 3, progress: a pending command that is not interrupted by reset or a host write completes, so a
poll ends: however many polls and reads the host still performs, some number of steps leads to BUSY = 0. The bound is
the model's own `delay` (log entry 2), of which nothing is known. -/
def Obligations.PendingCommandCompletes : Prop :=
  ∀ s : State, busy s = true → (∀ op ∈ s.host, readOnly s op) →
    ∃ k t, k ≤ s.delay + 1 ∧ core.run k s = .next t ∧ busy t = false

/-- 70_reset_and_hazards.md section 5, "Only the engine step ends a `BUSY = 1` period, apart from reset and HazardWrite":
any other step of a busy device leaves it busy, with its registers and its buffer as they were. -/
def Obligations.OnlyTheEngineEndsBusy : Prop :=
  ∀ s t : State, busy s = true → engineTurn s = false → step s = .next t →
    (∃ op rest, s.host = op :: rest ∧ (op = .rst ∨ (∃ o v, op = .wr o v) ∨ ∃ a b, op = .sb a b)) ∨
      (busy t = true ∧ (∀ r, reg t r = reg s r) ∧ t.mem = s.mem)
end

