-- ==== Sys2Proof/Laws/Bytes.lean ====
section
/-! SUPPORT. Byte sequences, little-endian words and the lengths of everything a command reads or writes. -/

namespace Sys2Proof.Machine

/-! ### Lengths -/

@[simp] theorem length_memRead (s : State) (d : DrawSource) (a n : Nat) : (memRead s d a n).length = n := by
  simp [memRead]

@[simp] theorem length_readRegion (s : State) (d : DrawSource) (r : Region) : (readRegion s d r).length = r.len := by
  simp [readRegion]

@[simp] theorem length_randomBytes (s : State) (n : Nat) : (randomBytes s n).length = n := by simp [randomBytes]

@[simp] theorem length_bytesLe (v n : Nat) : (bytesLe v n).length = n := by simp [bytesLe]

@[simp] theorem length_codecWrite (ws v : Nat) : (codecWrite ws v).length = ws := by simp [codecWrite]

theorem length_slice (S : List Byte) (a b : Nat) : (slice S a b).length = min (b - a) (S.length - a) := by
  simp [slice]

/-- A list of `n` blocks of `w` bytes has `n * w` bytes. -/
theorem length_flatMap_blocks (n w : Nat) (f : Nat → List Byte) (hf : ∀ i, (f i).length = w) :
    ((List.range n).flatMap f).length = n * w := by
  simp [List.length_flatMap, hf]

/-- The transform gives as many whole words as its input has (42_modadd_transform.md R181). -/
@[simp] theorem length_transform (ws : Nat) (X K : List Byte) (V : Option (List Byte)) (dec : Bool) :
    (transform ws X K V dec).length = X.length / ws * ws :=
  length_flatMap_blocks _ _ _ fun _ => length_codecWrite ..

@[simp] theorem length_deriveKey (ws : Nat) (K V : List Byte) : (deriveKey ws K V).length = K.length / ws * ws :=
  length_transform ..

@[simp] theorem length_pad (ws : Nat) (P : List Byte) : (pad ws P).length = P.length + padCount ws P.length := by
  simp [pad]

/-- Padding completes the last word (43_framing.md R202). -/
theorem padCount_completes (ws n : Nat) (h : 0 < ws) : (n + padCount ws n) % ws = 0 := by
  have hm := Nat.mod_lt n h
  rw [padCount, Nat.add_mod_mod]
  by_cases h0 : n % ws = 0
  · rw [h0, Nat.sub_zero, Nat.add_mod_right, h0]
  · have : n + (ws - n % ws) = ws * (n / ws + 1) := by
      have := Nat.div_add_mod n ws
      rw [Nat.mul_add]
      omega
    rw [this, Nat.mul_mod_right]

/-- A number of whole words is its own number of words times the word size. -/
theorem div_mul_of_mod (n ws : Nat) (h : n % ws = 0) : n / ws * ws = n := by
  rw [Nat.mul_comm, Nat.mul_div_cancel' (Nat.dvd_of_mod_eq_zero h)]

/-! ### Reading a region -/

/-- Byte `t` of a region that was read: the byte there, or the draw made for it. -/
theorem getElem_memRead (s : State) (d : DrawSource) (a n t : Nat) (h : t < (memRead s d a n).length) :
    (memRead s d a n)[t] = (Memory.read? s.mem (a + t)).getD (Config.draw8 s.events d t) := by
  simp [memRead]

/-! ### Little-endian words -/

/-- `le` of `n` bytes is below `2^(8n)`. -/
theorem le_lt (S : List Byte) : le S < 2 ^ (8 * S.length) := by
  induction S with
  | nil => simp [le]
  | cons b bs ih =>
    have hb := b.isLt
    rw [le, List.length_cons, Nat.mul_add, Nat.mul_one, Nat.pow_add, Nat.mul_comm (2 ^ (8 * bs.length))]
    omega

/-- Byte 0 first: the little-endian bytes of a number, one at a time. -/
theorem bytesLe_succ (v n : Nat) : bytesLe v (n + 1) = BitVec.ofNat 8 (v % 256) :: bytesLe (v / 2 ^ 8) n := by
  simp only [bytesLe, List.range_succ_eq_map, List.map_cons, List.map_map, Nat.mul_zero, Nat.pow_zero, Nat.div_one]
  congr 1
  apply List.map_congr_left
  intro t _
  simp only [Function.comp, Nat.succ_eq_add_one]
  rw [Nat.div_div_eq_div_mul, ← Nat.pow_add, Nat.mul_add, Nat.mul_one, Nat.add_comm 8]

/-- `le` undoes `bytes_le`, modulo the range. -/
theorem le_bytesLe (v n : Nat) : le (bytesLe v n) = v % 2 ^ (8 * n) := by
  induction n generalizing v with
  | zero => simp [bytesLe, le, Nat.mod_one]
  | succ n ih =>
    rw [bytesLe_succ, le, ih, BitVec.toNat_ofNat, Nat.mul_add, Nat.mul_one, Nat.add_comm (8 * n), Nat.pow_add,
      Nat.mod_mul]
    omega

/-- `bytes_le` undoes `le`. -/
theorem bytesLe_le (S : List Byte) : bytesLe (le S) S.length = S := by
  induction S with
  | nil => rfl
  | cons b bs ih =>
    have hb : b.toNat < 256 := b.isLt
    rw [List.length_cons, bytesLe_succ, le]
    congr 1
    · apply BitVec.eq_of_toNat_eq
      rw [BitVec.toNat_ofNat]
      omega
    · rw [show (b.toNat + 2 ^ 8 * le bs) / 2 ^ 8 = le bs by omega]
      exact ih

/-- A word read is below `R`. -/
theorem codecRead_lt (ws : Nat) (S : List Byte) (a : Nat) : codecRead ws S a < radix ws := by
  refine Nat.lt_of_lt_of_le (le_lt _) (Nat.pow_le_pow_right (by omega) ?_)
  rw [length_slice]
  omega

/-- A word below `R` written and read back (40_word_codec.md R150, R151). -/
theorem le_codecWrite (ws v : Nat) : le (codecWrite ws v) = v % radix ws := by
  rw [codecWrite, le_bytesLe, radix, Nat.mod_mod]

/-- Block `i` of a list of equal blocks. -/
theorem slice_flatMap_blocks (n w : Nat) (f : Nat → List Byte) (hf : ∀ i, (f i).length = w) (i : Nat) (hi : i < n) :
    slice ((List.range n).flatMap f) (i * w) (i * w + w) = f i := by
  have hsplit : List.range n = List.range i ++ i :: (List.range (n - i - 1)).map (fun x => i + 1 + x) := by
    rw [show n = i + ((n - i - 1) + 1) by omega, List.range_add, List.range_succ_eq_map]
    simp only [List.map_cons, List.map_map]
    congr 2
    rw [show i + (n - i - 1 + 1) - i - 1 = n - i - 1 by omega]
    apply List.map_congr_left
    intro x _
    simp only [Function.comp]
    omega
  have hlen : ((List.range i).flatMap f).length = i * w := length_flatMap_blocks i w f hf
  rw [slice, hsplit, List.flatMap_append, List.flatMap_cons, ← hlen, List.drop_left, Nat.add_sub_cancel_left]
  conv_lhs => rw [← hf i]
  rw [List.take_left]

/-- Output word `i` of the transform (42_modadd_transform.md R180), as the bytes it writes. -/
theorem slice_transform (ws : Nat) (X K : List Byte) (V : Option (List Byte)) (dec : Bool) (i : Nat)
    (hi : i < X.length / ws) :
    slice (transform ws X K V dec) (i * ws) (i * ws + ws) =
      codecWrite ws (transformWord ws dec (codecRead ws X (i * ws)) (cyclicWord ws K i) (ivWord ws V i)) :=
  slice_flatMap_blocks _ ws _ (fun _ => length_codecWrite ..) i hi

/-- A transform word is below `R` (42_modadd_transform.md R184, R185). -/
theorem transformWord_lt (ws : Nat) (dec : Bool) (x k v : Nat) : transformWord ws dec x k v < radix ws := by
  have hR : 0 < radix ws := Nat.pow_pos (by omega)
  unfold transformWord
  split
  · have h0 := Int.emod_nonneg ((x : Int) - k - v) (show (radix ws : Int) ≠ 0 by omega)
    have h1 := Int.emod_lt_of_pos ((x : Int) - k - v) (show (0 : Int) < radix ws by omega)
    omega
  · exact Nat.mod_lt _ hR

end Sys2Proof.Machine
end

