-- ==== Sys2Proof/Laws/Memory.lean ====
section
/-! SUPPORT. The laws of the buffer memory: what a read gives after a write, and that every memory operation keeps the
canonical form. -/

namespace Sys2Proof.Machine

/-! ### Reading after writing -/

/-- A byte reads as what was written there last; every other byte reads as before. -/
theorem read?_write (m : Memory) (a : Nat) (b : Byte) (x : Nat) :
    Memory.read? (Memory.write m a b) x = if x = a then some b else Memory.read? m x := by
  induction m with
  | nil => simp [Memory.write, Memory.read?]
  | cons c rest ih =>
    obtain ⟨k, v⟩ := c
    simp only [Memory.write]
    split
    · simp only [Memory.read?]
    · split
      · rename_i h
        subst h
        simp only [Memory.read?]
        split <;> rfl
      · simp only [Memory.read?, ih]
        by_cases hk : x = k
        · have : x ≠ a := fun h => by omega
          simp [hk, show k ≠ a by omega]
        · simp [hk]

/-- `MemWrite` of a byte sequence: inside the region a byte is the sequence's, outside it is as before. -/
theorem read?_writeBytes (m : Memory) (p : Nat) (bs : List Byte) (x : Nat) :
    Memory.read? (Memory.writeBytes m p bs) x =
      if p ≤ x ∧ x < p + bs.length then bs[x - p]? else Memory.read? m x := by
  induction bs generalizing m p with
  | nil => simp [Memory.writeBytes, show ¬ (p ≤ x ∧ x < p) by omega]
  | cons b bs ih =>
    rw [Memory.writeBytes, ih, read?_write, List.length_cons]
    by_cases hx : x = p
    · subst hx; simp
    · by_cases hin : p + 1 ≤ x ∧ x < p + 1 + bs.length
      · rw [if_pos hin, if_pos (by omega), show x - p = (x - (p + 1)) + 1 by omega, List.getElem?_cons_succ]
      · rw [if_neg hin, if_neg hx, if_neg (by omega)]

/-- A byte outside the written region is unchanged. -/
theorem read?_writeBytes_outside (m : Memory) (p : Nat) (bs : List Byte) (x : Nat) (h : x < p ∨ p + bs.length ≤ x) :
    Memory.read? (Memory.writeBytes m p bs) x = Memory.read? m x := by
  rw [read?_writeBytes, if_neg (by omega)]

/-! ### The canonical form -/

/-- In a canonical memory every later offset is above the first. -/
theorem wf_cons_lt (m : Memory) (a : Nat) (b : Byte) (h : Memory.wf ((a, b) :: m) = true) :
    ∀ c ∈ m, a < c.1 := by
  induction m generalizing a b with
  | nil => intro c hc; cases hc
  | cons d rest ih =>
    obtain ⟨k, v⟩ := d
    simp only [Memory.wf, Bool.and_eq_true, decide_eq_true_eq] at h
    intro c hc
    rcases List.mem_cons.1 hc with rfl | hc
    · exact h.1
    · have := ih k v h.2 c hc
      omega

/-- The tail of a canonical memory is canonical. -/
theorem wf_tail (m : Memory) (c : Host.Cell) (h : Memory.wf (c :: m) = true) : Memory.wf m = true := by
  cases m with
  | nil => rfl
  | cons d rest =>
    obtain ⟨a, b⟩ := c
    obtain ⟨k, v⟩ := d
    simp only [Memory.wf, Bool.and_eq_true] at h
    exact h.2

/-- A canonical memory with a lower first entry is canonical. -/
theorem wf_cons (m : Memory) (a : Nat) (b : Byte) (h : Memory.wf m = true) (hlt : ∀ c ∈ m, a < c.1) :
    Memory.wf ((a, b) :: m) = true := by
  cases m with
  | nil => rfl
  | cons d rest =>
    obtain ⟨k, v⟩ := d
    simp only [Memory.wf, Bool.and_eq_true, decide_eq_true_eq]
    exact ⟨hlt (k, v) (List.mem_cons_self ..), h⟩

/-- The offsets of a memory after a write: the old ones and the written one. -/
theorem mem_write (m : Memory) (a : Nat) (b : Byte) (c : Host.Cell) (h : c ∈ Memory.write m a b) :
    c = (a, b) ∨ c ∈ m := by
  induction m with
  | nil => simpa [Memory.write] using h
  | cons d rest ih =>
    obtain ⟨k, v⟩ := d
    simp only [Memory.write] at h
    split at h
    · simpa using h
    · split at h
      · rcases List.mem_cons.1 h with h | h
        · exact .inl h
        · exact .inr (List.mem_cons_of_mem _ h)
      · rcases List.mem_cons.1 h with h | h
        · exact .inr (h ▸ List.mem_cons_self ..)
        · rcases ih h with h | h
          · exact .inl h
          · exact .inr (List.mem_cons_of_mem _ h)

/-- A write keeps the canonical form. -/
theorem wf_write (m : Memory) (a : Nat) (b : Byte) (h : Memory.wf m = true) : Memory.wf (Memory.write m a b) = true := by
  induction m with
  | nil => rfl
  | cons d rest ih =>
    obtain ⟨k, v⟩ := d
    have hlt := wf_cons_lt rest k v h
    have ht := wf_tail rest (k, v) h
    simp only [Memory.write]
    split
    · refine wf_cons _ a b h fun c hc => ?_
      rcases List.mem_cons.1 hc with rfl | hc
      · assumption
      · have := hlt c hc
        omega
    · split
      · rename_i hk
        exact wf_cons _ a b ht fun c hc => hk ▸ hlt c hc
      · refine wf_cons _ k v (ih ht) fun c hc => ?_
        rcases mem_write rest a b c hc with rfl | hc
        · show k < a
          omega
        · exact hlt c hc

/-- `MemWrite` keeps the canonical form. -/
theorem wf_writeBytes (m : Memory) (p : Nat) (bs : List Byte) (h : Memory.wf m = true) :
    Memory.wf (Memory.writeBytes m p bs) = true := by
  induction bs generalizing m p with
  | nil => exact h
  | cons b bs ih => exact ih _ _ (wf_write m p b h)

/-- A write inside the buffer keeps the memory inside it. -/
theorem within_write (m : Memory) (a size : Nat) (b : Byte) (h : Memory.within m size = true) (ha : a < size) :
    Memory.within (Memory.write m a b) size = true := by
  simp only [Memory.within, List.all_eq_true, decide_eq_true_eq] at h ⊢
  intro c hc
  rcases mem_write m a b c hc with rfl | hc
  · exact ha
  · exact h c hc

/-- `MemWrite` inside the buffer keeps the memory inside it. -/
theorem within_writeBytes (m : Memory) (p size : Nat) (bs : List Byte) (h : Memory.within m size = true)
    (hp : bs = [] ∨ p + bs.length ≤ size) : Memory.within (Memory.writeBytes m p bs) size = true := by
  induction bs generalizing m p with
  | nil => exact h
  | cons b bs ih =>
    rcases hp with hp | hp
    · cases hp
    · rw [List.length_cons] at hp
      exact ih _ _ (within_write m p size b h (by omega)) (.inr (by omega))

end Sys2Proof.Machine
end

