-- ==== Sys2Proof/Laws/State.lean ====
section
/-! SUPPORT. One lemma per field per named update of the state, true by definition, so that no later proof unfolds a
record update. -/

namespace Sys2Proof.Machine

/-! ### `succeed`: Success completion (60_exceptions.md R246) -/

@[simp] theorem succeed_config (s : State) : (succeed s).config = s.config := rfl
@[simp] theorem succeed_cmd (s : State) : (succeed s).cmd = s.cmd := rfl
@[simp] theorem succeed_status (s : State) : (succeed s).status = successStatus := rfl
@[simp] theorem succeed_srcPtr (s : State) : (succeed s).srcPtr = s.srcPtr := rfl
@[simp] theorem succeed_srcLen (s : State) : (succeed s).srcLen = s.srcLen := rfl
@[simp] theorem succeed_keyPtr (s : State) : (succeed s).keyPtr = s.keyPtr := rfl
@[simp] theorem succeed_keyLen (s : State) : (succeed s).keyLen = s.keyLen := rfl
@[simp] theorem succeed_ivPtr (s : State) : (succeed s).ivPtr = s.ivPtr := rfl
@[simp] theorem succeed_dstPtr (s : State) : (succeed s).dstPtr = s.dstPtr := rfl
@[simp] theorem succeed_data (s : State) : (succeed s).data = s.data := rfl
@[simp] theorem succeed_resLen (s : State) : (succeed s).resLen = s.resLen := rfl
@[simp] theorem succeed_bufSize (s : State) : (succeed s).bufSize = s.bufSize := rfl
@[simp] theorem succeed_mem (s : State) : (succeed s).mem = s.mem := rfl
@[simp] theorem succeed_host (s : State) : (succeed s).host = s.host := rfl
@[simp] theorem succeed_reads (s : State) : (succeed s).reads = s.reads := rfl
@[simp] theorem succeed_delay (s : State) : (succeed s).delay = s.delay := rfl
@[simp] theorem succeed_events (s : State) : (succeed s).events = s.events + 1 := rfl

/-! ### `abort`: Error or fault completion (60_exceptions.md R243, R244) -/

@[simp] theorem abort_config (s : State) (a : Abort) : (abort s a).config = s.config := rfl
@[simp] theorem abort_cmd (s : State) (a : Abort) : (abort s a).cmd = s.cmd := rfl
@[simp] theorem abort_status (s : State) (a : Abort) : (abort s a).status = abortStatus a := rfl
@[simp] theorem abort_srcPtr (s : State) (a : Abort) : (abort s a).srcPtr = s.srcPtr := rfl
@[simp] theorem abort_srcLen (s : State) (a : Abort) : (abort s a).srcLen = s.srcLen := rfl
@[simp] theorem abort_keyPtr (s : State) (a : Abort) : (abort s a).keyPtr = s.keyPtr := rfl
@[simp] theorem abort_keyLen (s : State) (a : Abort) : (abort s a).keyLen = s.keyLen := rfl
@[simp] theorem abort_ivPtr (s : State) (a : Abort) : (abort s a).ivPtr = s.ivPtr := rfl
@[simp] theorem abort_dstPtr (s : State) (a : Abort) : (abort s a).dstPtr = s.dstPtr := rfl
@[simp] theorem abort_data (s : State) (a : Abort) : (abort s a).data = s.data := rfl
@[simp] theorem abort_resLen (s : State) (a : Abort) : (abort s a).resLen = some 0#32 := rfl
@[simp] theorem abort_bufSize (s : State) (a : Abort) : (abort s a).bufSize = s.bufSize := rfl
@[simp] theorem abort_mem (s : State) (a : Abort) : (abort s a).mem = s.mem := rfl
@[simp] theorem abort_host (s : State) (a : Abort) : (abort s a).host = s.host := rfl
@[simp] theorem abort_reads (s : State) (a : Abort) : (abort s a).reads = s.reads := rfl
@[simp] theorem abort_delay (s : State) (a : Abort) : (abort s a).delay = s.delay := rfl
@[simp] theorem abort_events (s : State) (a : Abort) : (abort s a).events = s.events + 1 := rfl

/-! ### `storeResult`: The destination region is written (00_scope.md R16, 10_state.md R47) -/

@[simp] theorem storeResult_config (s : State) (dst : Region) (bytes : List Byte) : (storeResult s dst bytes).config = s.config := rfl
@[simp] theorem storeResult_cmd (s : State) (dst : Region) (bytes : List Byte) : (storeResult s dst bytes).cmd = s.cmd := rfl
@[simp] theorem storeResult_status (s : State) (dst : Region) (bytes : List Byte) : (storeResult s dst bytes).status = s.status := rfl
@[simp] theorem storeResult_srcPtr (s : State) (dst : Region) (bytes : List Byte) : (storeResult s dst bytes).srcPtr = s.srcPtr := rfl
@[simp] theorem storeResult_srcLen (s : State) (dst : Region) (bytes : List Byte) : (storeResult s dst bytes).srcLen = s.srcLen := rfl
@[simp] theorem storeResult_keyPtr (s : State) (dst : Region) (bytes : List Byte) : (storeResult s dst bytes).keyPtr = s.keyPtr := rfl
@[simp] theorem storeResult_keyLen (s : State) (dst : Region) (bytes : List Byte) : (storeResult s dst bytes).keyLen = s.keyLen := rfl
@[simp] theorem storeResult_ivPtr (s : State) (dst : Region) (bytes : List Byte) : (storeResult s dst bytes).ivPtr = s.ivPtr := rfl
@[simp] theorem storeResult_dstPtr (s : State) (dst : Region) (bytes : List Byte) : (storeResult s dst bytes).dstPtr = s.dstPtr := rfl
@[simp] theorem storeResult_data (s : State) (dst : Region) (bytes : List Byte) : (storeResult s dst bytes).data = s.data := rfl
@[simp] theorem storeResult_resLen (s : State) (dst : Region) (bytes : List Byte) : (storeResult s dst bytes).resLen = some (BitVec.ofNat 32 dst.len) := rfl
@[simp] theorem storeResult_bufSize (s : State) (dst : Region) (bytes : List Byte) : (storeResult s dst bytes).bufSize = s.bufSize := rfl
@[simp] theorem storeResult_mem (s : State) (dst : Region) (bytes : List Byte) : (storeResult s dst bytes).mem = Memory.writeBytes s.mem dst.ptr bytes := rfl
@[simp] theorem storeResult_host (s : State) (dst : Region) (bytes : List Byte) : (storeResult s dst bytes).host = s.host := rfl
@[simp] theorem storeResult_reads (s : State) (dst : Region) (bytes : List Byte) : (storeResult s dst bytes).reads = s.reads := rfl
@[simp] theorem storeResult_delay (s : State) (dst : Region) (bytes : List Byte) : (storeResult s dst bytes).delay = s.delay := rfl
@[simp] theorem storeResult_events (s : State) (dst : Region) (bytes : List Byte) : (storeResult s dst bytes).events = s.events := rfl

/-! ### `loadResult`: DATA is written (40_word_codec.md R152) -/

@[simp] theorem loadResult_config (s : State) (v n : Nat) : (loadResult s v n).config = s.config := rfl
@[simp] theorem loadResult_cmd (s : State) (v n : Nat) : (loadResult s v n).cmd = s.cmd := rfl
@[simp] theorem loadResult_status (s : State) (v n : Nat) : (loadResult s v n).status = s.status := rfl
@[simp] theorem loadResult_srcPtr (s : State) (v n : Nat) : (loadResult s v n).srcPtr = s.srcPtr := rfl
@[simp] theorem loadResult_srcLen (s : State) (v n : Nat) : (loadResult s v n).srcLen = s.srcLen := rfl
@[simp] theorem loadResult_keyPtr (s : State) (v n : Nat) : (loadResult s v n).keyPtr = s.keyPtr := rfl
@[simp] theorem loadResult_keyLen (s : State) (v n : Nat) : (loadResult s v n).keyLen = s.keyLen := rfl
@[simp] theorem loadResult_ivPtr (s : State) (v n : Nat) : (loadResult s v n).ivPtr = s.ivPtr := rfl
@[simp] theorem loadResult_dstPtr (s : State) (v n : Nat) : (loadResult s v n).dstPtr = s.dstPtr := rfl
@[simp] theorem loadResult_data (s : State) (v n : Nat) : (loadResult s v n).data = some (BitVec.ofNat 32 v) := rfl
@[simp] theorem loadResult_resLen (s : State) (v n : Nat) : (loadResult s v n).resLen = some (BitVec.ofNat 32 n) := rfl
@[simp] theorem loadResult_bufSize (s : State) (v n : Nat) : (loadResult s v n).bufSize = s.bufSize := rfl
@[simp] theorem loadResult_mem (s : State) (v n : Nat) : (loadResult s v n).mem = s.mem := rfl
@[simp] theorem loadResult_host (s : State) (v n : Nat) : (loadResult s v n).host = s.host := rfl
@[simp] theorem loadResult_reads (s : State) (v n : Nat) : (loadResult s v n).reads = s.reads := rfl
@[simp] theorem loadResult_delay (s : State) (v n : Nat) : (loadResult s v n).delay = s.delay := rfl
@[simp] theorem loadResult_events (s : State) (v n : Nat) : (loadResult s v n).events = s.events := rfl

/-! ### `answer`: A host read (20_memory.md R83) -/

@[simp] theorem answer_config (s : State) (r : HostRead) : (answer s r).config = s.config := rfl
@[simp] theorem answer_cmd (s : State) (r : HostRead) : (answer s r).cmd = s.cmd := rfl
@[simp] theorem answer_status (s : State) (r : HostRead) : (answer s r).status = s.status := rfl
@[simp] theorem answer_srcPtr (s : State) (r : HostRead) : (answer s r).srcPtr = s.srcPtr := rfl
@[simp] theorem answer_srcLen (s : State) (r : HostRead) : (answer s r).srcLen = s.srcLen := rfl
@[simp] theorem answer_keyPtr (s : State) (r : HostRead) : (answer s r).keyPtr = s.keyPtr := rfl
@[simp] theorem answer_keyLen (s : State) (r : HostRead) : (answer s r).keyLen = s.keyLen := rfl
@[simp] theorem answer_ivPtr (s : State) (r : HostRead) : (answer s r).ivPtr = s.ivPtr := rfl
@[simp] theorem answer_dstPtr (s : State) (r : HostRead) : (answer s r).dstPtr = s.dstPtr := rfl
@[simp] theorem answer_data (s : State) (r : HostRead) : (answer s r).data = s.data := rfl
@[simp] theorem answer_resLen (s : State) (r : HostRead) : (answer s r).resLen = s.resLen := rfl
@[simp] theorem answer_bufSize (s : State) (r : HostRead) : (answer s r).bufSize = s.bufSize := rfl
@[simp] theorem answer_mem (s : State) (r : HostRead) : (answer s r).mem = s.mem := rfl
@[simp] theorem answer_host (s : State) (r : HostRead) : (answer s r).host = s.host := rfl
@[simp] theorem answer_reads (s : State) (r : HostRead) : (answer s r).reads = r :: s.reads := rfl
@[simp] theorem answer_delay (s : State) (r : HostRead) : (answer s r).delay = s.delay := rfl
@[simp] theorem answer_events (s : State) (r : HostRead) : (answer s r).events = s.events := rfl

/-! ### `count`: The step is counted -/

@[simp] theorem count_config (s : State) : (count s).config = s.config := rfl
@[simp] theorem count_cmd (s : State) : (count s).cmd = s.cmd := rfl
@[simp] theorem count_status (s : State) : (count s).status = s.status := rfl
@[simp] theorem count_srcPtr (s : State) : (count s).srcPtr = s.srcPtr := rfl
@[simp] theorem count_srcLen (s : State) : (count s).srcLen = s.srcLen := rfl
@[simp] theorem count_keyPtr (s : State) : (count s).keyPtr = s.keyPtr := rfl
@[simp] theorem count_keyLen (s : State) : (count s).keyLen = s.keyLen := rfl
@[simp] theorem count_ivPtr (s : State) : (count s).ivPtr = s.ivPtr := rfl
@[simp] theorem count_dstPtr (s : State) : (count s).dstPtr = s.dstPtr := rfl
@[simp] theorem count_data (s : State) : (count s).data = s.data := rfl
@[simp] theorem count_resLen (s : State) : (count s).resLen = s.resLen := rfl
@[simp] theorem count_bufSize (s : State) : (count s).bufSize = s.bufSize := rfl
@[simp] theorem count_mem (s : State) : (count s).mem = s.mem := rfl
@[simp] theorem count_host (s : State) : (count s).host = s.host := rfl
@[simp] theorem count_reads (s : State) : (count s).reads = s.reads := rfl
@[simp] theorem count_delay (s : State) : (count s).delay = s.delay := rfl
@[simp] theorem count_events (s : State) : (count s).events = s.events + 1 := rfl

/-! ### `takeLine`: The host takes its next line -/

@[simp] theorem takeLine_config (s : State) (rest : List HostOp) : (takeLine s rest).config = s.config := rfl
@[simp] theorem takeLine_cmd (s : State) (rest : List HostOp) : (takeLine s rest).cmd = s.cmd := rfl
@[simp] theorem takeLine_status (s : State) (rest : List HostOp) : (takeLine s rest).status = s.status := rfl
@[simp] theorem takeLine_srcPtr (s : State) (rest : List HostOp) : (takeLine s rest).srcPtr = s.srcPtr := rfl
@[simp] theorem takeLine_srcLen (s : State) (rest : List HostOp) : (takeLine s rest).srcLen = s.srcLen := rfl
@[simp] theorem takeLine_keyPtr (s : State) (rest : List HostOp) : (takeLine s rest).keyPtr = s.keyPtr := rfl
@[simp] theorem takeLine_keyLen (s : State) (rest : List HostOp) : (takeLine s rest).keyLen = s.keyLen := rfl
@[simp] theorem takeLine_ivPtr (s : State) (rest : List HostOp) : (takeLine s rest).ivPtr = s.ivPtr := rfl
@[simp] theorem takeLine_dstPtr (s : State) (rest : List HostOp) : (takeLine s rest).dstPtr = s.dstPtr := rfl
@[simp] theorem takeLine_data (s : State) (rest : List HostOp) : (takeLine s rest).data = s.data := rfl
@[simp] theorem takeLine_resLen (s : State) (rest : List HostOp) : (takeLine s rest).resLen = s.resLen := rfl
@[simp] theorem takeLine_bufSize (s : State) (rest : List HostOp) : (takeLine s rest).bufSize = s.bufSize := rfl
@[simp] theorem takeLine_mem (s : State) (rest : List HostOp) : (takeLine s rest).mem = s.mem := rfl
@[simp] theorem takeLine_host (s : State) (rest : List HostOp) : (takeLine s rest).host = rest := rfl
@[simp] theorem takeLine_reads (s : State) (rest : List HostOp) : (takeLine s rest).reads = s.reads := rfl
@[simp] theorem takeLine_delay (s : State) (rest : List HostOp) : (takeLine s rest).delay = s.delay - 1 := rfl
@[simp] theorem takeLine_events (s : State) (rest : List HostOp) : (takeLine s rest).events = s.events := rfl

/-! ### `deviceReset`: Reset (70_reset_and_hazards.md R270) -/

@[simp] theorem deviceReset_config (s : State) : (deviceReset s).config = some 0#32 := rfl
@[simp] theorem deviceReset_cmd (s : State) : (deviceReset s).cmd = some 0#32 := rfl
@[simp] theorem deviceReset_status (s : State) : (deviceReset s).status = 0#32 := rfl
@[simp] theorem deviceReset_srcPtr (s : State) : (deviceReset s).srcPtr = some 0#32 := rfl
@[simp] theorem deviceReset_srcLen (s : State) : (deviceReset s).srcLen = some 0#32 := rfl
@[simp] theorem deviceReset_keyPtr (s : State) : (deviceReset s).keyPtr = some 0#32 := rfl
@[simp] theorem deviceReset_keyLen (s : State) : (deviceReset s).keyLen = some 0#32 := rfl
@[simp] theorem deviceReset_ivPtr (s : State) : (deviceReset s).ivPtr = some 0#32 := rfl
@[simp] theorem deviceReset_dstPtr (s : State) : (deviceReset s).dstPtr = some 0#32 := rfl
@[simp] theorem deviceReset_data (s : State) : (deviceReset s).data = some 0#32 := rfl
@[simp] theorem deviceReset_resLen (s : State) : (deviceReset s).resLen = some 0#32 := rfl
@[simp] theorem deviceReset_bufSize (s : State) : (deviceReset s).bufSize = s.bufSize := rfl
@[simp] theorem deviceReset_mem (s : State) : (deviceReset s).mem = [] := rfl
@[simp] theorem deviceReset_host (s : State) : (deviceReset s).host = s.host := rfl
@[simp] theorem deviceReset_reads (s : State) : (deviceReset s).reads = s.reads := rfl
@[simp] theorem deviceReset_delay (s : State) : (deviceReset s).delay = 0 := rfl
@[simp] theorem deviceReset_events (s : State) : (deviceReset s).events = s.events := rfl

/-! ### `setReg` writes one register and nothing else -/

@[simp] theorem setReg_status (s : State) (r : Reg) (v : Option Word32) : (setReg s r v).status = s.status := by
  cases r <;> rfl
@[simp] theorem setReg_bufSize (s : State) (r : Reg) (v : Option Word32) : (setReg s r v).bufSize = s.bufSize := by
  cases r <;> rfl
@[simp] theorem setReg_mem (s : State) (r : Reg) (v : Option Word32) : (setReg s r v).mem = s.mem := by
  cases r <;> rfl
@[simp] theorem setReg_host (s : State) (r : Reg) (v : Option Word32) : (setReg s r v).host = s.host := by
  cases r <;> rfl
@[simp] theorem setReg_reads (s : State) (r : Reg) (v : Option Word32) : (setReg s r v).reads = s.reads := by
  cases r <;> rfl
@[simp] theorem setReg_delay (s : State) (r : Reg) (v : Option Word32) : (setReg s r v).delay = s.delay := by
  cases r <;> rfl
@[simp] theorem setReg_events (s : State) (r : Reg) (v : Option Word32) : (setReg s r v).events = s.events := by
  cases r <;> rfl

/-- A write of one register leaves every other register as it was. -/
theorem reg_setReg_ne (s : State) (r q : Reg) (v : Option Word32) (h : q ≠ r) : reg (setReg s r v) q = reg s q := by
  cases r <;> cases q <;> first | rfl | exact absurd rfl h

/-- A write of a register that holds its own field is read back; ID, STATUS and BUFSIZE are left alone. -/
theorem reg_setReg_self (s : State) (r : Reg) (v : Option Word32) (h : r ≠ .id ∧ r ≠ .status ∧ r ≠ .bufSize) :
    reg (setReg s r v) r = v := by
  cases r <;> first | rfl | simp at h

/-! ### STATUS of a completed step -/

@[simp] theorem busy_succeed (s : State) : busy (succeed s) = false := by
  show (bits successStatus 0 0 == 1) = false
  decide

@[simp] theorem busy_abort (s : State) (a : Abort) : busy (abort s a) = false := by
  show (bits (abortStatus a) 0 0 == 1) = false
  rcases a with e | c
  · cases e <;> decide
  · cases c <;> decide

@[simp] theorem busy_deviceReset (s : State) : busy (deviceReset s) = false := by
  show (bits 0#32 0 0 == 1) = false
  decide

@[simp] theorem busy_answer (s : State) (r : HostRead) : busy (answer s r) = busy s := rfl

@[simp] theorem busy_takeLine (s : State) (rest : List HostOp) : busy (takeLine s rest) = busy s := rfl

@[simp] theorem busy_count (s : State) : busy (count s) = busy s := rfl

@[simp] theorem busy_setReg (s : State) (r : Reg) (v : Option Word32) : busy (setReg s r v) = busy s := by
  simp [busy]

@[simp] theorem reg_answer (s : State) (a : HostRead) (r : Reg) : reg (answer s a) r = reg s r := by cases r <;> rfl

@[simp] theorem reg_count (s : State) (r : Reg) : reg (count s) r = reg s r := by cases r <;> rfl

@[simp] theorem reg_takeLine (s : State) (rest : List HostOp) (r : Reg) : reg (takeLine s rest) r = reg s r := by
  cases r <;> rfl

/-- A register that is defined has that value as an operand. -/
theorem regValue_of_some (s : State) (r : Reg) (v : Word32) (h : reg s r = some v) : regValue s r = v := by
  simp [regValue, h]

/-- The offset table and its inverse agree (10_state.md R30). -/
@[simp] theorem regAt_regOffset (r : Reg) : regAt (regOffset r) = some r := by cases r <;> rfl

@[simp] theorem regOffsetLegal_regOffset (r : Reg) : regOffsetLegal (regOffset r) = true := by cases r <;> rfl

end Sys2Proof.Machine
end

