-- ==== Sys2Proof/Laws/Ops.lean ====
section
/-! SUPPORT. What each shared operation can do, said once: how a command ends, what a valid CONFIG gives, and what exec
answers for every command. -/

namespace Sys2Proof.Machine

/-! ### How a command ends -/

/-- A command ends in exactly one of two ways: its effect and success, or the first failing check and nothing else
(60_exceptions.md R241, R247). -/
theorem runCommand_cases (s : State) (checks : List Check) (effect t : State)
    (h : runCommand s checks effect = .next t) :
    (firstFailure checks = none ∧ t = succeed effect) ∨
      (∃ a, firstFailure checks = some a ∧ t = abort s a) := by
  simp only [runCommand, Host.Outcome.next.injEq] at h
  cases hf : firstFailure checks with
  | none => exact .inl ⟨rfl, by rw [hf] at h; exact h.symm⟩
  | some a => exact .inr ⟨a, rfl, by rw [hf] at h; exact h.symm⟩

@[simp] theorem firstFailure_nil : firstFailure [] = none := rfl

@[simp] theorem firstFailure_cons (ok : Bool) (a : Abort) (rest : List Check) :
    firstFailure ((ok, a) :: rest) = if ok then firstFailure rest else some a := rfl

/-- No check fails exactly when every check holds. -/
theorem firstFailure_eq_none (checks : List Check) : firstFailure checks = none ↔ ∀ c ∈ checks, c.1 = true := by
  induction checks with
  | nil => simp
  | cons c rest ih =>
    obtain ⟨ok, a⟩ := c
    cases ok <;> simp [ih]

/-- The failure reported is that of one of the checks. -/
theorem firstFailure_mem (checks : List Check) (a : Abort) (h : firstFailure checks = some a) :
    ∃ c ∈ checks, c.2 = a := by
  induction checks with
  | nil => cases h
  | cons c rest ih =>
    obtain ⟨ok, b⟩ := c
    rw [firstFailure_cons] at h
    split at h
    · obtain ⟨c, hc, he⟩ := ih h
      exact ⟨c, List.mem_cons_of_mem _ hc, he⟩
    · exact ⟨(ok, b), List.mem_cons_self .., Option.some.inj h⟩

/-! ### What a valid CONFIG gives -/

/-- The word sizes of a valid CONFIG (00_scope.md R8). -/
theorem wordSize_of_valid (c : Word32) (h : configValid c = true) : wordSize c = 1 ∨ wordSize c = 2 ∨ wordSize c = 4 := by
  have hlt : bits c 1 0 < 4 := Nat.mod_lt _ (by omega)
  simp only [configValid, Bool.and_eq_true, bne_iff_ne, ne_eq] at h
  have h3 : bits c 1 0 ≠ 3 := h.1.1.1.1
  have hc : bits c 1 0 = 0 ∨ bits c 1 0 = 1 ∨ bits c 1 0 = 2 := by omega
  rcases hc with h | h | h <;> simp [wordSize, h]

theorem wordSize_pos (c : Word32) : 0 < wordSize c := by simp [wordSize, Nat.shiftLeft_eq]

/-- The IV length is at least 8 (00_scope.md R9). -/
theorem ivLength_pos (c : Word32) : 8 ≤ ivLength c := by
  rw [ivLength, Nat.shiftLeft_eq]
  exact Nat.le_mul_of_pos_right 8 (Nat.pow_pos (by omega))

/-- The IV of a valid CONFIG is a whole number of words (00_scope.md R13). -/
theorem ivLength_words (c : Word32) (h : configValid c = true) : ivLength c % wordSize c = 0 := by
  rw [ivLength, Nat.shiftLeft_eq]
  rcases wordSize_of_valid c h with h | h | h <;> rw [h] <;> omega

theorem markerLen_le (c : Word32) : markerLen c = 0 ∨ markerLen c = 1 := by
  have : markerLen c < 2 := Nat.mod_lt _ (by omega)
  omega

/-! ### What exec answers -/

/-- How an engine step can end without success: the six errors and OutOfRange (60_exceptions.md R242, R245). -/
def engineAborts : List Abort :=
  [.error .invalidKey, .error .invalidConfiguration, .error .malformedCiphertext, .error .illegalCommand,
   .error .invalidLength, .error .regionOverlap, .fault .outOfRange]

/-- A command that only loads: it aborts, or DATA and RES_LEN are written. -/
def EndsLoading (s t : State) : Prop :=
  (∃ a ∈ engineAborts, t = abort s a) ∨ ∃ v n, t = succeed (loadResult s v n)

/-- A command that stores into `dst`: it aborts, or exactly the bytes of an in-range `dst` are written. -/
def EndsStoring (s : State) (dst : Region) (t : State) : Prop :=
  (∃ a ∈ engineAborts, t = abort s a) ∨
    ∃ bytes : List Byte, bytes.length = dst.len ∧ inRange s dst = true ∧ t = succeed (storeResult s dst bytes)

/-- An abort whose checks are all the engine's. -/
theorem abort_of_checks (s t : State) (checks : List Check) (hall : ∀ c ∈ checks, c.2 ∈ engineAborts)
    (h : ∃ a, firstFailure checks = some a ∧ t = abort s a) : ∃ a ∈ engineAborts, t = abort s a := by
  obtain ⟨a, hf, ht⟩ := h
  obtain ⟨c, hc, he⟩ := firstFailure_mem checks a hf
  exact ⟨a, he ▸ hall c hc, ht⟩

/-- READ_WORD loads or aborts. -/
theorem execReadWord_ends (s t : State) (h : execReadWord s = .next t) : EndsLoading s t := by
  rcases runCommand_cases _ _ _ _ h with ⟨-, rfl⟩ | h
  · exact .inr ⟨_, _, rfl⟩
  · exact .inl (abort_of_checks s t _ (by simp [configCheck, inputCheck, engineAborts]) h)

/-- WRITE_WORD stores its word or aborts. -/
theorem execWriteWord_ends (s t : State) (h : execWriteWord s = .next t) : EndsStoring s (writeWordRegion s) t := by
  rcases runCommand_cases _ _ _ _ h with ⟨hc, rfl⟩ | h
  · rw [firstFailure_eq_none] at hc
    exact .inr ⟨_, length_codecWrite .., hc (destCheck s (writeWordRegion s)) (by simp), rfl⟩
  · exact .inl (abort_of_checks s t _ (by simp [configCheck, destCheck, engineAborts]) h)

/-- TRANSFORM stores its output or aborts. -/
theorem transformCommand_ends (s t : State) (dec ivp : Bool) (h : transformCommand s dec ivp = .next t) :
    EndsStoring s (transformDst s) t := by
  rcases runCommand_cases _ _ _ _ h with ⟨hc, rfl⟩ | h
  · rw [firstFailure_eq_none] at hc
    have hl : (lengthCheck s).1 = true := hc _ (by simp)
    refine .inr ⟨_, ?_, hc (destCheck s (transformDst s)) (by simp), rfl⟩
    rw [transformOutput, length_transform, length_readRegion]
    have hmod : regNat s .srcLen % wordSize (configOf s) = 0 := by simpa [lengthCheck] using hl
    exact div_mul_of_mod _ _ hmod
  · exact .inl (abort_of_checks s t _
      (by simp [configCheck, keyCheck, lengthCheck, inputCheck, destCheck, overlapCheck, engineAborts]) h)

/-- DERIVE stores the derived key or aborts. -/
theorem execDerive_ends (s t : State) (h : execDerive s = .next t) : EndsStoring s (deriveDst s) t := by
  rcases runCommand_cases _ _ _ _ h with ⟨hc, rfl⟩ | h
  · rw [firstFailure_eq_none] at hc
    have hk : (keyCheck s).1 = true := hc _ (by simp)
    refine .inr ⟨_, ?_, hc (destCheck s (deriveDst s)) (by simp), rfl⟩
    simp only [keyCheck, keyValid, Bool.and_eq_true, beq_iff_eq] at hk
    rw [deriveOutput, length_deriveKey, length_readRegion]
    exact div_mul_of_mod _ _ hk.2
  · exact .inl (abort_of_checks s t _ (by simp [configCheck, keyCheck, inputCheck, destCheck, overlapCheck, engineAborts]) h)

/-- RNG_FILL stores random bytes or aborts. -/
theorem execRngFill_ends (s t : State) (h : execRngFill s = .next t) : EndsStoring s (rngDst s) t := by
  rcases runCommand_cases _ _ _ _ h with ⟨hc, rfl⟩ | h
  · rw [firstFailure_eq_none] at hc
    exact .inr ⟨_, length_randomBytes .., hc (destCheck s (rngDst s)) (by simp), rfl⟩
  · exact .inl (abort_of_checks s t _ (by simp [configCheck, destCheck, engineAborts]) h)

/-- The IV of ENCRYPT has the configured length. -/
theorem length_encryptIv (s : State) : (encryptIv s).length = ivLength (configOf s) := by
  unfold encryptIv
  split
  · rw [length_readRegion]
    rfl
  · rw [length_randomBytes]

/-- The frame has `m + ivLen + roundup(sl, ws)` bytes (43_framing.md R203). -/
theorem length_encryptOutput (s : State) : (encryptOutput s).length = (encryptDst s).len := by
  have hm := markerLen_le (configOf s)
  have hp := padCount_completes (wordSize (configOf s)) (regNat s .srcLen) (wordSize_pos _)
  have hpad : (pad (wordSize (configOf s)) (readRegion s .src (srcRegion s))).length =
      regNat s .srcLen + padCount (wordSize (configOf s)) (regNat s .srcLen) := by
    rw [length_pad, length_readRegion]
    rfl
  simp only [encryptOutput, encryptFrame, frame, encryptDst, dstRegion, List.length_append, length_transform, hpad,
    length_encryptIv, div_mul_of_mod _ _ hp]
  rcases hm with hm | hm <;> simp [hm] <;> omega

/-- ENCRYPT stores a frame or aborts. -/
theorem execEncrypt_ends (s t : State) (h : execEncrypt s = .next t) : EndsStoring s (encryptDst s) t := by
  rcases runCommand_cases _ _ _ _ h with ⟨hc, rfl⟩ | h
  · rw [firstFailure_eq_none] at hc
    exact .inr ⟨_, length_encryptOutput s, hc (destCheck s (encryptDst s)) (by simp), rfl⟩
  · exact .inl (abort_of_checks s t _ (by simp [configCheck, keyCheck, inputCheck, destCheck, overlapCheck, engineAborts]) h)

/-- A frame that is not malformed, by its lengths (43_framing.md R207). -/
theorem not_malformed (c : Word32) (S : List Byte) (sl : Nat) (h : malformed c S sl = false) :
    markerLen c + ivLength c ≤ sl ∧ bodyLen c sl % wordSize c = 0 ∧ frameMarker c S < wordSize c ∧
      frameMarker c S ≤ bodyLen c sl := by
  simp only [malformed, Bool.or_eq_false_iff, decide_eq_false_iff_not, bne_eq_false_iff_eq] at h
  omega

/-- DECRYPT stores the plaintext or aborts. -/
theorem execDecrypt_ends (s t : State) (h : execDecrypt s = .next t) : EndsStoring s (decryptDst s) t := by
  rcases runCommand_cases _ _ _ _ h with ⟨hc, rfl⟩ | h
  · rw [firstFailure_eq_none] at hc
    have hm : (malformedCheck s).1 = true := hc _ (by simp)
    refine .inr ⟨_, ?_, hc (destCheck s (decryptDst s)) (by simp), rfl⟩
    obtain ⟨h1, h2, -, -⟩ := not_malformed _ _ _ (by simpa [malformedCheck] using hm)
    have hlen : (decryptSource s).length = regNat s .srcLen := length_readRegion ..
    have hbody : regNat s .srcLen - (markerLen (configOf s) + ivLength (configOf s)) =
        bodyLen (configOf s) (regNat s .srcLen) := by
      simp only [bodyLen]
      omega
    simp only [decryptOutput, decryptPadded, length_slice, length_transform, hlen, hbody, Nat.min_self,
      div_mul_of_mod _ _ h2]
    simp only [decryptDst, dstRegion]
    omega
  · exact .inl (abort_of_checks s t _
      (by simp [configCheck, keyCheck, inputCheck, malformedCheck, destCheck, overlapCheck, engineAborts]) h)

end Sys2Proof.Machine
end

