-- ==== Sys2Proof/Laws/Step.lean ====
section
/-! SUPPORT. What one step can do, said once: the engine's turn, an illegal word, the host's turn. -/

namespace Sys2Proof.Machine

/-- On the engine's turn a word that decodes is executed. -/
theorem step_of_decode (s : State) (i : Instr) (ht : engineTurn s = true) (hd : decode (commandPending s) = .ok i) :
    step s = exec i s := by
  simp [step, ht, hd]

/-- When it is not the engine's turn, the host moves. -/
theorem step_of_hostTurn (s : State) (ht : engineTurn s = false) : step s = hostTurn s := by simp [step, ht]

/-- A step that answers a next state is an executed command, an illegal word, an idle wait, or a host access. -/
theorem step_cases (s t : State) (h : step s = .next t) :
    (engineTurn s = true ∧ ((∃ i, decode (commandPending s) = .ok i ∧ exec i s = .next t) ∨
        ((∃ e, decode (commandPending s) = .error e) ∧ t = abort s (.error .illegalCommand)))) ∨
      (engineTurn s = false ∧ ((s.host = [] ∧ t = s) ∨
        ∃ op rest, s.host = op :: rest ∧ hostAccess (takeLine s rest) op = .next t)) := by
  unfold step at h
  split at h
  · rename_i ht
    refine .inl ⟨ht, ?_⟩
    split at h
    · rename_i i hi
      exact .inl ⟨i, hi, h⟩
    · rename_i e he
      exact .inr ⟨⟨e, he⟩, (Host.Outcome.next.inj h).symm⟩
  · rename_i ht
    refine .inr ⟨by simpa using ht, ?_⟩
    unfold hostTurn at h
    split at h
    · rename_i hn
      exact .inl ⟨hn, (Host.Outcome.next.inj h).symm⟩
    · rename_i op rest hc
      exact .inr ⟨op, rest, hc, h⟩

/-- A host access that answers a next state, by its kind: a register write, a read, a byte write, reset, a poll. -/
theorem hostAccess_cases (s t : State) (op : HostOp) (h : hostAccess s op = .next t) :
    (∃ o v, op = .wr o v ∧ regOffsetLegal o = true ∧ t = count (hostWriteReg s o v)) ∨
    (∃ o, op = .rd o ∧ regOffsetLegal o = true ∧ t = count (answer s (.reg o (hostReadReg s o)))) ∨
    (∃ a b, op = .sb a b ∧ bufOffsetLegal s a = true ∧ t = count (hostWriteByte s a b)) ∨
    (∃ a, op = .lb a ∧ bufOffsetLegal s a = true ∧ t = count (answer s (.buf a (hostReadByte s a)))) ∨
    (op = .rst ∧ t = count (deviceReset s)) ∨
    (op = .poll ∧ ((busy s = true ∧ t = { count (answer s (.reg 0x0C s.status)) with host := .poll :: s.host }) ∨
      (busy s = false ∧ t = count (answer s (.reg 0x0C s.status))))) := by
  cases op with
  | wr o v =>
    simp only [hostAccess] at h
    split at h
    · exact .inl ⟨o, v, rfl, ‹_›, (Host.Outcome.next.inj h).symm⟩
    · cases h
  | rd o =>
    simp only [hostAccess] at h
    split at h
    · exact .inr (.inl ⟨o, rfl, ‹_›, (Host.Outcome.next.inj h).symm⟩)
    · cases h
  | sb a b =>
    simp only [hostAccess] at h
    split at h
    · exact .inr (.inr (.inl ⟨a, b, rfl, ‹_›, (Host.Outcome.next.inj h).symm⟩))
    · cases h
  | lb a =>
    simp only [hostAccess] at h
    split at h
    · exact .inr (.inr (.inr (.inl ⟨a, rfl, ‹_›, (Host.Outcome.next.inj h).symm⟩)))
    · cases h
  | rst => exact .inr (.inr (.inr (.inr (.inl ⟨rfl, (Host.Outcome.next.inj h).symm⟩))))
  | poll =>
    refine .inr (.inr (.inr (.inr (.inr ⟨rfl, ?_⟩))))
    have h := (Host.Outcome.next.inj h).symm
    cases hb : busy s
    · exact .inr ⟨rfl, by rw [h, hb]; rfl⟩
    · exact .inl ⟨rfl, by rw [h, hb]; rfl⟩
  | badWidth sp => cases h

/-- What an ordinary register write can do (20_memory.md R84, R85): nothing, an issue, or one register. -/
theorem hostWriteReg_cases (s : State) (o : Nat) (v : Word32) :
    (busy s = true ∧ hostWriteReg s o v = hazardWrite s (regAt o)) ∨
    (busy s = false ∧ (hostWriteReg s o v = s ∨ (regAt o = some .cmd ∧ hostWriteReg s o v = issue s v) ∨
      ∃ r, regAt o = some r ∧ hostWritable r = true ∧ hostWriteReg s o v = setReg s r (some v))) := by
  unfold hostWriteReg
  cases hb : busy s
  · refine .inr ⟨rfl, ?_⟩
    cases hr : regAt o with
    | none => exact .inl rfl
    | some r =>
      by_cases hc : r = .cmd
      · exact .inr (.inl ⟨by rw [hc], by simp [hc]⟩)
      · by_cases hw : hostWritable r = true
        · exact .inr (.inr ⟨r, rfl, hw, by simp [hc, hw]⟩)
        · exact .inl (by simp [hc, hw])
  · exact .inl ⟨rfl, by simp⟩

/-- A HazardWrite, whatever it targets, leaves the same STATUS, an undefined buffer, DATA and RES_LEN, and the host's
side alone (70_reset_and_hazards.md R275). -/
theorem hazardWrite_effect (s : State) (target : Option Reg) :
    (hazardWrite s target).status = abortStatus (.fault .hazardWrite) ∧ (hazardWrite s target).mem = [] ∧
      (hazardWrite s target).data = none ∧ (hazardWrite s target).resLen = none ∧
        (hazardWrite s target).bufSize = s.bufSize ∧ (hazardWrite s target).host = s.host ∧
          (hazardWrite s target).reads = s.reads ∧ (hazardWrite s target).events = s.events := by
  cases target with
  | none => simp [hazardWrite]
  | some r => cases r <;> simp [hazardWrite, hazardTarget, setReg]

end Sys2Proof.Machine
end

