-- ==== Sys2Proof/Laws/Exec.lean ====
section
/-! SUPPORT. What exec can do, said once for the ten commands, and the operands and checks as plain propositions. -/

namespace Sys2Proof.Machine

/-! ### Operands and checks -/

/-- A bit field as the core library's extraction. -/
theorem bits_eq_extractLsb (v : Word32) (hi lo : Nat) : bits v hi lo = (v.extractLsb hi lo).toNat := by
  simp [bits, BitVec.extractLsb, BitVec.extractLsb'_toNat, Nat.shiftRight_eq_div_pow]

/-- A field of one bit. -/
theorem bits_one (v : Word32) (n : Nat) : bits v n n = if v.getLsbD n then 1 else 0 := by
  rw [bits, Nat.sub_self, BitVec.getLsbD, Nat.testBit_eq_decide_div_mod_eq]
  rcases Nat.mod_two_eq_zero_or_one (v.toNat / 2 ^ n) with h | h <;> simp [h]

theorem configOf_of_some (s : State) (c : Word32) (h : s.config = some c) : configOf s = c :=
  regValue_of_some s .config c h

theorem regNat_of_some (s : State) (r : Reg) (v : Word32) (h : reg s r = some v) : regNat s r = v.toNat := by
  rw [regNat, regValue_of_some s r v h]

theorem commandPending_of_some (s : State) (w : Word32) (h : s.cmd = some w) : commandPending s = w :=
  regValue_of_some s .cmd w h

theorem inRange_iff (s : State) (r : Region) : inRange s r = true ↔ (r.len = 0 ∨ r.ptr + r.len ≤ s.bufSize.toNat) := by
  simp [inRange]

theorem overlap_iff (r q : Region) :
    overlap r q = true ↔ (r.len > 0 ∧ q.len > 0 ∧ r.ptr < q.ptr + q.len ∧ q.ptr < r.ptr + r.len) := by
  simp [overlap, and_assoc]

theorem keyValid_iff (ws kl : Nat) : keyValid ws kl = true ↔ (kl > 0 ∧ kl % ws = 0) := by simp [keyValid]

/-! ### What exec answers -/

/-- Every command, in every state, answers a next state (60_exceptions.md R241). -/
theorem exec_next (i : Instr) (s : State) : ∃ t, exec i s = .next t := by cases i <;> exact ⟨_, rfl⟩

/-- A command whose checks all hold succeeds with its effect. -/
theorem runCommand_of_checks (s : State) (checks : List Check) (effect : State) (h : ∀ c ∈ checks, c.1 = true) :
    runCommand s checks effect = .next (succeed effect) := by
  rw [runCommand, (firstFailure_eq_none checks).2 h]

/-- The three ways a command ends: it aborts; READ_WORD loads; any other command stores into its region, which is in
range, exactly as many bytes as the region has. -/
theorem exec_cases (i : Instr) (s t : State) (h : exec i s = .next t) :
    (∃ a ∈ engineAborts, t = abort s a) ∨ (∃ v n, i = .readWord ∧ t = succeed (loadResult s v n)) ∨
      ∃ bytes, i ≠ .readWord ∧ bytes.length = (storeRegion i s).len ∧ inRange s (storeRegion i s) = true ∧
        t = succeed (storeResult s (storeRegion i s) bytes) := by
  have hs : i ≠ .readWord → EndsStoring s (storeRegion i s) t := by
    intro hi
    cases i
    · exact absurd rfl hi
    · exact execWriteWord_ends s t h
    · exact transformCommand_ends s t _ _ h
    · exact transformCommand_ends s t _ _ h
    · exact transformCommand_ends s t _ _ h
    · exact transformCommand_ends s t _ _ h
    · exact execDerive_ends s t h
    · exact execRngFill_ends s t h
    · exact execEncrypt_ends s t h
    · exact execDecrypt_ends s t h
  by_cases hi : i = .readWord
  · subst hi
    rcases execReadWord_ends s t h with h | ⟨v, n, h⟩
    · exact .inl h
    · exact .inr (.inl ⟨v, n, rfl, h⟩)
  · rcases hs hi with h | ⟨b, h1, h2, h3⟩
    · exact .inl h
    · exact .inr (.inr ⟨b, hi, h1, h2, h3⟩)

/-- A command leaves the device idle, and the host's lines alone. -/
theorem exec_idle (i : Instr) (s t : State) (h : exec i s = .next t) : busy t = false ∧ t.host = s.host := by
  rcases exec_cases i s t h with ⟨a, -, rfl⟩ | ⟨v, n, -, rfl⟩ | ⟨b, -, -, -, rfl⟩ <;> simp

/-! ### Whose turn it is -/

theorem engineTurn_of_pending (s : State) (hb : busy s = true) (h : s.delay = 0 ∨ s.host = []) :
    engineTurn s = true := by
  rcases h with h | h <;> simp [engineTurn, hb, h]

theorem engineTurn_of_idle (s : State) (hb : busy s = false) : engineTurn s = false := by simp [engineTurn, hb]

theorem engineTurn_of_delay (s : State) (op : HostOp) (rest : List HostOp) (hd : s.delay ≠ 0)
    (hh : s.host = op :: rest) : engineTurn s = false := by
  simp [engineTurn, hd, hh]

/-- The host performs the line at the head of its list. -/
theorem step_of_hostLine (s : State) (op : HostOp) (rest : List HostOp) (ht : engineTurn s = false)
    (hh : s.host = op :: rest) : step s = hostAccess (takeLine s rest) op := by
  rw [step_of_hostTurn s ht, hostTurn, hh]

/-- The register at an offset lies at that offset (10_state.md R30). -/
theorem regOffset_of_regAt (o : Nat) (r : Reg) (h : regAt o = some r) : regOffset r = o := by
  unfold regAt at h
  split at h <;> first | (cases h; rfl) | cases h

end Sys2Proof.Machine
end

