-- ==== Sys2Proof/Laws/PerInstr.lean ====
section
/-! SUPPORT. Per-instruction statements about a command as syntax: its word, its name, and its well-formedness. -/

namespace Sys2Proof.Laws.Encoding

/-- The word of a command is legal (30_encoding.md R124), is well-formed (R125), and its name assembles to it (R129). -/
def Statement (i : Instr) : Prop :=
  i.wellFormed = true ∧ legalCmd (encode i) = true ∧ wellFormedWord (encode i) = true ∧
    assemble (mnemonic i) = some (encode i)

theorem readWord : Statement .readWord := by unfold Statement; decide
theorem writeWord : Statement .writeWord := by unfold Statement; decide
theorem transformEnc : Statement .transformEnc := by unfold Statement; decide
theorem transformDec : Statement .transformDec := by unfold Statement; decide
theorem transformEncIv : Statement .transformEncIv := by unfold Statement; decide
theorem transformDecIv : Statement .transformDecIv := by unfold Statement; decide
theorem derive : Statement .derive := by unfold Statement; decide
theorem rngFill : Statement .rngFill := by unfold Statement; decide
theorem encrypt : Statement .encrypt := by unfold Statement; decide
theorem decrypt : Statement .decrypt := by unfold Statement; decide

end Sys2Proof.Laws.Encoding
end

