-- ==== Sys2Proof/Laws/Words.lean ====
section
/-! SUPPORT. Byte sequences as sequences of whole words, and stored bytes read back. -/

namespace Sys2Proof.Machine

/-- Output word `i` of the transform, as a value (42_modadd_transform.md R180). -/
theorem codecRead_transform (ws : Nat) (X K : List Byte) (V : Option (List Byte)) (dec : Bool) (i : Nat)
    (hi : i < X.length / ws) :
    codecRead ws (transform ws X K V dec) (i * ws) =
      transformWord ws dec (codecRead ws X (i * ws)) (cyclicWord ws K i) (ivWord ws V i) := by
  rw [codecRead, slice_transform ws X K V dec i hi, le_codecWrite, Nat.mod_eq_of_lt (transformWord_lt ..)]

/-- A sequence of whole words is its words, one after the other. -/
theorem flatMap_words (ws n : Nat) (X : List Byte) (h : X.length = n * ws) :
    ((List.range n).flatMap fun i => slice X (i * ws) (i * ws + ws)) = X := by
  induction n generalizing X with
  | zero =>
    rw [Nat.zero_mul] at h
    simp [List.length_eq_zero_iff.1 h]
  | succ n ih =>
    rw [List.range_succ_eq_map, List.flatMap_cons, List.flatMap_map]
    have h2 := ih (X.drop ws) (by rw [List.length_drop, h, Nat.succ_mul]; omega)
    conv_rhs => rw [← List.take_append_drop ws X, ← h2]
    congr 1
    · simp [slice]
    · congr 1
      funext i
      simp only [slice, List.drop_drop, Nat.succ_eq_add_one, Nat.add_sub_cancel_left]
      rw [show ws + i * ws = (i + 1) * ws by ring]

/-- Two sequences of whole words are equal when their words are. -/
theorem eq_of_words (ws : Nat) (X Y : List Byte) (hX : X.length % ws = 0) (hl : X.length = Y.length)
    (h : ∀ i, i < X.length / ws → codecRead ws X (i * ws) = codecRead ws Y (i * ws)) : X = Y := by
  have hx : X.length = X.length / ws * ws := (div_mul_of_mod _ _ hX).symm
  rw [← flatMap_words ws _ X hx, ← flatMap_words ws (X.length / ws) Y (hl ▸ hx)]
  rw [List.flatMap_congr]
  intro i hi
  have hi := List.mem_range.1 hi
  have hlen : ∀ Z : List Byte, Z.length = X.length → (slice Z (i * ws) (i * ws + ws)).length = ws := by
    intro Z hz
    rw [length_slice, hz, hx]
    have : (i + 1) * ws ≤ X.length / ws * ws := Nat.mul_le_mul_right _ hi
    rw [Nat.succ_mul] at this
    omega
  have hw := h i hi
  rw [codecRead, codecRead] at hw
  have e1 := bytesLe_le (slice X (i * ws) (i * ws + ws))
  have e2 := bytesLe_le (slice Y (i * ws) (i * ws + ws))
  rw [hlen X rfl] at e1
  rw [hlen Y hl.symm] at e2
  rw [← e1, ← e2, hw]

/-- A byte of the stored sequence, read back. -/
theorem read?_writeBytes_inside (m : Memory) (p : Nat) (bs : List Byte) (k : Nat) (h : k < bs.length) :
    Memory.read? (Memory.writeBytes m p bs) (p + k) = bs[k]? := by
  rw [read?_writeBytes, if_pos (by omega), Nat.add_sub_cancel_left]

/-- A region whose bytes are all defined reads as those bytes, whatever is drawn. -/
theorem memRead_of_defined (s : State) (d : DrawSource) (p n : Nat) (bs : List Byte) (hl : bs.length = n)
    (h : ∀ k, k < n → Memory.read? s.mem (p + k) = bs[k]?) : memRead s d p n = bs := by
  apply List.ext_getElem (by simp [hl])
  intro k h1 h2
  rw [getElem_memRead, h k (by omega), List.getElem?_eq_getElem h2]
  rfl

end Sys2Proof.Machine
end

