-- ==== Sys2Proof/Tests/Slice0.lean ====
section
/-! SUPPORT. The model's own tests, each one step on a small state with the expected values of spec/95_test_vectors.md,
and a witness for the hypotheses of every statement. -/

namespace Sys2Proof.Tests

open Sys2Proof Sys2Proof.Machine Sys2Proof.Claims

/-! ### Helpers -/

/-- A device after reset with `BUF_BYTES = 4096`, the value the vectors take (95_test_vectors.md), and a CONFIG. -/
def dev (c : Word32) : State := { State.reset with bufSize := 0x1000#32, config := some c }

/-- Bytes placed in the buffer. -/
def put (s : State) (p : Nat) (bs : List Byte) : State := { s with mem := Memory.writeBytes s.mem p bs }

/-- The source, key, IV and destination registers set. -/
def args (s : State) (sp sl kp kl vp dp : Word32) : State :=
  { s with
    srcPtr := some sp, srcLen := some sl, keyPtr := some kp, keyLen := some kl, ivPtr := some vp, dstPtr := some dp }

/-- A command word pending, with `n` host accesses to come before the engine. -/
def issued (s : State) (w : Word32) (n : Nat) : State := { s with cmd := some w, status := 0x1#32, delay := n }

/-- The host's lines still to come. -/
def lines (s : State) (ops : List HostOp) : State := { s with host := ops }

/-- STATUS and RES_LEN after an outcome. -/
def post : Host.Outcome State Fault Refusal → Option (Word32 × Option Word32)
  | .next t => some (t.status, t.resLen)
  | _ => none

/-- The `n` bytes at `p` after an outcome. -/
def buf (p n : Nat) : Host.Outcome State Fault Refusal → Option (List (Option Byte))
  | .next t => some ((List.range n).map fun k => Memory.read? t.mem (p + k))
  | _ => none

/-- A register after an outcome. -/
def regOf (r : Reg) : Host.Outcome State Fault Refusal → Option (Option Word32)
  | .next t => some (reg t r)
  | _ => none

/-- What the host's latest read returned, after an outcome. -/
def lastRead : Host.Outcome State Fault Refusal → Option HostRead
  | .next t => t.reads.head?
  | _ => none

/-- Every byte of a list, defined. -/
def defined (bs : List Byte) : Option (List (Option Byte)) := some (bs.map some)

/-! ### Well-formedness and the decoder -/

/-- 30_encoding.md R125: each of the ten words passes the check, and every command does. -/
theorem test_wellFormed_all :
    legalWords.all wellFormedWord = true ∧ allInstrs.all Instr.wellFormed = true := by decide

/-- R124 and vectors K7 to K11: a word that breaks a field rule is ill-formed. -/
theorem test_illFormed_words :
    [0x0#32, 0x8#32, 0xF#32, 0x11#32, 0x101#32, 0x201#32, 0x302#32, 0x403#32, 0x80000003#32].any wellFormedWord = false := by
  decide

/-- Each ill-formed word is refused by the decoder, with the name of the conjunct of R124 that it breaks. -/
theorem test_illFormed_reasons :
    decode 0x80000003#32 = .error .reservedHigh ∧ decode 0x403#32 = .error .reservedHigh ∧
    decode 0x11#32 = .error .reservedMid ∧ decode 0x83#32 = .error .reservedMid ∧
    decode 0x0#32 = .error .opcode ∧ decode 0x8#32 = .error .opcode ∧ decode 0xF#32 = .error .opcode ∧
    decode 0x101#32 = .error .modifier ∧ decode 0x207#32 = .error .modifier := by decide

/-! Each command's word, written bit by bit from R121 to R123: reserved 31:10, IVP 9, DEC 8, reserved 7:4, OP 3:0. -/

theorem test_decode_readWord : decode 0b0000000000000000000000_0_0_0000_0001#32 = .ok .readWord := by decide
theorem test_decode_writeWord : decode 0b0000000000000000000000_0_0_0000_0010#32 = .ok .writeWord := by decide
theorem test_decode_transformEnc : decode 0b0000000000000000000000_0_0_0000_0011#32 = .ok .transformEnc := by decide
theorem test_decode_transformDec : decode 0b0000000000000000000000_0_1_0000_0011#32 = .ok .transformDec := by decide
theorem test_decode_transformEncIv : decode 0b0000000000000000000000_1_0_0000_0011#32 = .ok .transformEncIv := by decide
theorem test_decode_transformDecIv : decode 0b0000000000000000000000_1_1_0000_0011#32 = .ok .transformDecIv := by decide
theorem test_decode_derive : decode 0b0000000000000000000000_0_0_0000_0100#32 = .ok .derive := by decide
theorem test_decode_rngFill : decode 0b0000000000000000000000_0_0_0000_0101#32 = .ok .rngFill := by decide
theorem test_decode_encrypt : decode 0b0000000000000000000000_0_0_0000_0110#32 = .ok .encrypt := by decide
theorem test_decode_decrypt : decode 0b0000000000000000000000_0_0_0000_0111#32 = .ok .decrypt := by decide

/-- withFetchWord leaves the word pending and the engine's turn next, from reset. -/
theorem test_fetch_from_reset :
    engineTurn (State.reset.withFetchWord 32 0x203) = true ∧
      decode (commandPending (State.reset.withFetchWord 32 0x203)) = .ok .transformEncIv := by decide

/-! ### CONFIG -/

/-- Vectors K1 to K6: one invalid word per conjunct of 10_state.md R39, and the largest valid IV. -/
theorem test_configValid :
    [0x1#32, 0x3#32, 0x60#32, 0x1000#32, 0x8#32].any configValid = false ∧ configValid 0x352#32 = true ∧
      ivLength 0x352#32 = 256 ∧ wordSize 0x352#32 = 4 := by decide

/-- 30_encoding.md R131: the `cfg` lines of programs P2 and P4. -/
theorem test_cfg_line : lineCfg 2 8 1 1 = [.wr 0x04 0x301#32] ∧ lineCfg 4 16 1 1 = [.wr 0x04 0x312#32] := by decide

/-! ### READ_WORD and WRITE_WORD -/

/-- The buffer of vectors W1 to W4. -/
def wordDev (c : Word32) : State := put (dev c) 0 [0x44#8, 0x33#8, 0x22#8, 0x11#8]

/-- Vector W4: a misaligned word. -/
theorem test_readWord_misaligned :
    let o := exec .readWord { wordDev 0x101#32 with srcPtr := some 1#32 }
    regOf .data o = some (some 0x2233#32) ∧ post o = some (0x2#32, some 2#32) := by decide

/-- Vectors W9 and W10: the last word of the buffer, and one byte further. -/
theorem test_readWord_edge :
    (let o := exec .readWord { put (dev 0x102#32) 0xFFC [1#8, 2#8, 3#8, 4#8] with srcPtr := some 0xFFC#32 }
     regOf .data o = some (some 0x04030201#32) ∧ post o = some (0x2#32, some 4#32)) ∧
    (let o := exec .readWord { dev 0x102#32 with srcPtr := some 0xFFD#32, data := some 7#32 }
     regOf .data o = some (some 7#32) ∧ post o = some (0x106#32, some 0#32)) := by decide

/-- Vector W6: the value is taken modulo `R`, lowest byte first. -/
theorem test_writeWord_truncates :
    let o := exec .writeWord { dev 0x101#32 with dstPtr := some 0#32, data := some 0x12345#32 }
    buf 0 3 o = some [some 0x45#8, some 0x23#8, none] ∧ post o = some (0x2#32, some 2#32) := by decide

/-- Vector W12: out of range, nothing written. -/
theorem test_writeWord_edge :
    let o := exec .writeWord { dev 0x101#32 with dstPtr := some 0xFFF#32, data := some 5#32 }
    buf 0xFFF 1 o = some [none] ∧ post o = some (0x106#32, some 0#32) := by decide

/-! ### TRANSFORM -/

/-- Vector T8: the key index is the remainder, not a mask. -/
theorem test_transformEnc_cycles :
    let s := args (put (put (dev 0x0#32) 0 [1#8, 2#8, 3#8]) 0x10 (List.replicate 8 0#8)) 0x10#32 8#32 0#32 3#32 0#32 0x20#32
    buf 0x20 8 (exec .transformEnc s) = defined [1#8, 2#8, 3#8, 1#8, 2#8, 3#8, 1#8, 2#8] := by decide

/-- Vectors T13 (in place) and K14 (an empty key ranks before a bad length). -/
theorem test_transformEnc_checks :
    post (exec .transformEnc (args (dev 0x0#32) 0x10#32 4#32 0#32 1#32 0#32 0x10#32)) = some (0x62#32, some 0#32) ∧
    post (exec .transformEnc (args (dev 0x101#32) 0#32 3#32 0#32 0#32 0#32 0x10#32)) = some (0x12#32, some 0#32) := by
  decide

/-- Vector T3b: the difference is never negative. -/
theorem test_transformDec_wraps :
    buf 0x20 1 (exec .transformDec (args (put (put (dev 0x0#32) 0 [1#8]) 0x10 [0#8]) 0x10#32 1#32 0#32 1#32 0#32 0x20#32)) =
      defined [0xFF#8] := by decide

/-- Vector T12: a length that is not a whole number of words. -/
theorem test_transformDec_length :
    post (exec .transformDec (args (dev 0x101#32) 0x10#32 3#32 0#32 2#32 0#32 0x20#32)) = some (0x52#32, some 0#32) := by
  decide

/-- Vector T4: three key words and four IV words cycle by word. -/
theorem test_transformEncIv_words :
    let s := put (put (put (dev 0x101#32) 0 [0x10#8, 0#8, 0x20#8, 0#8, 0x30#8, 0#8]) 0x10 [0#8, 1#8, 2#8, 3#8, 4#8, 5#8, 6#8, 7#8])
      0x30 [1#8, 0#8, 2#8, 0#8, 3#8, 0#8, 4#8, 0#8]
    buf 0x20 8 (exec .transformEncIv (args s 0x10#32 8#32 0#32 6#32 0x30#32 0x20#32)) =
      defined [0x11#8, 0x01#8, 0x24#8, 0x03#8, 0x37#8, 0x05#8, 0x1A#8, 0x07#8] := by decide

/-- Vector T15: IVP = 1 range-checks the IV. -/
theorem test_transformEncIv_range :
    post (exec .transformEncIv (args (dev 0x0#32) 0x10#32 1#32 0#32 1#32 0xFFFFFFFF#32 0x20#32)) =
      some (0x106#32, some 0#32) := by decide

/-- Vector T5: two subtractions that wrap. -/
theorem test_transformDecIv_wraps :
    let s := put (put (put (dev 0x102#32) 0 (List.replicate 4 0xFF#8)) 0x10 (List.replicate 4 0#8))
      0x30 (List.replicate 4 0xFF#8 ++ List.replicate 4 0#8)
    buf 0x20 4 (exec .transformDecIv (args s 0x10#32 4#32 0#32 4#32 0x30#32 0x20#32)) =
      defined [2#8, 0#8, 0#8, 0#8] := by decide

/-! ### DERIVE and RNG_FILL -/

/-- Vector DK5: word size 4, IV length 16. -/
theorem test_derive_words :
    let s := put (put (dev 0x312#32) 0 [1#8, 2#8, 3#8, 4#8, 5#8, 6#8, 7#8, 8#8]) 0x10
      [0x10#8, 0x11#8, 0x12#8, 0x13#8, 0x14#8, 0x15#8, 0x16#8, 0x17#8, 0x18#8, 0x19#8, 0x1A#8, 0x1B#8, 0x1C#8, 0x1D#8, 0x1E#8, 0x1F#8]
    let o := exec .derive (args s 0#32 0#32 0#32 8#32 0x10#32 0x40#32)
    buf 0x40 8 o = defined [0x11#8, 0x13#8, 0x15#8, 0x17#8, 0x19#8, 0x1B#8, 0x1D#8, 0x1F#8] ∧ post o = some (0x2#32, some 8#32) := by
  decide

/-- Vectors DK6 (InvalidKey before OutOfRange) and DK8 (the destination overlaps the IV). -/
theorem test_derive_checks :
    post (exec .derive (args (dev 0x0#32) 0#32 0#32 0xFFFFFFFF#32 0#32 0#32 0#32)) = some (0x12#32, some 0#32) ∧
    post (exec .derive (args (dev 0x0#32) 0#32 0#32 0#32 2#32 0x10#32 0x11#32)) = some (0x62#32, some 0#32) := by decide

/-- Vectors G1 (the length is rounded up) and G4 (the rounded length does not fit). -/
theorem test_rngFill_lengths :
    post (exec .rngFill (args (dev 0x101#32) 0#32 3#32 0#32 0#32 0#32 0x40#32)) = some (0x2#32, some 4#32) ∧
    buf 0x44 1 (exec .rngFill (args (dev 0x101#32) 0#32 3#32 0#32 0#32 0#32 0x40#32)) = some [none] ∧
    post (exec .rngFill (args (dev 0x102#32) 0#32 5#32 0#32 0#32 0#32 0xFFC#32)) = some (0x106#32, some 0#32) := by
  decide

/-! ### ENCRYPT and DECRYPT -/

/-- The setup of vectors F3 and E12 to E16. -/
def helloDev (c sp sl vp dp : Word32) : State :=
  args (put (put (put (dev c) 0 [0x11#8, 0x22#8, 0x33#8, 0x44#8]) 0x10 [0#8, 1#8, 2#8, 3#8, 4#8, 5#8, 6#8, 7#8])
    0x20 [0x48#8, 0x65#8, 0x6C#8, 0x6C#8, 0x6F#8]) sp sl 0#32 4#32 vp dp

/-- The frame of vector F3. -/
def helloFrame : List Byte :=
  [0x01#8, 0#8, 1#8, 2#8, 3#8, 4#8, 5#8, 6#8, 7#8, 0x59#8, 0x89#8, 0xA3#8, 0xB6#8, 0x84#8, 0x48#8]

/-- Vector F3, at the last place where the frame fits (E16). -/
theorem test_encrypt_hello :
    let o := exec .encrypt (helloDev 0x301#32 0x20#32 5#32 0x10#32 0xFF1#32)
    buf 0xFF1 15 o = defined helloFrame ∧ post o = some (0x2#32, some 15#32) := by decide

/-- Vectors E12 to E15. -/
theorem test_encrypt_checks :
    post (exec .encrypt (helloDev 0x301#32 0x20#32 5#32 0x10#32 0x24#32)) = some (0x62#32, some 0#32) ∧
    post (exec .encrypt (helloDev 0x301#32 0x20#32 5#32 0xFFC#32 0x40#32)) = some (0x106#32, some 0#32) ∧
    post (exec .encrypt (helloDev 0x101#32 0x20#32 5#32 0xFFC#32 0x40#32)) = some (0x2#32, some 15#32) ∧
    post (exec .encrypt (helloDev 0x301#32 0x20#32 5#32 0x10#32 0xFF2#32)) = some (0x106#32, some 0#32) := by decide

/-- Vector F10: the plaintext comes back, and the filler's slot is left alone. -/
theorem test_decrypt_hello :
    let s := put (put (helloDev 0x301#32 0x40#32 15#32 0#32 0x80#32) 0x40 helloFrame) 0x85 [0xAA#8]
    buf 0x80 6 (exec .decrypt s) = defined [0x48#8, 0x65#8, 0x6C#8, 0x6C#8, 0x6F#8, 0xAA#8] ∧
      post (exec .decrypt s) = some (0x2#32, some 5#32) := by decide

/-- Vectors E6 (a marker too large), E7 (out of range first), E9 (overlap) and E11 (shorter than the IV). -/
theorem test_decrypt_checks :
    post (exec .decrypt (args (put (put (dev 0x300#32) 0 [1#8, 2#8]) 0x40 ([1#8] ++ List.replicate 8 0#8 ++ [0x42#8, 0x44#8, 0x44#8]))
      0x40#32 12#32 0#32 2#32 0#32 0x80#32)) = some (0x32#32, some 0#32) ∧
    post (exec .decrypt (helloDev 0x301#32 0xFFE#32 3#32 0#32 0x80#32)) = some (0x106#32, some 0#32) ∧
    post (exec .decrypt (put (helloDev 0x301#32 0x40#32 15#32 0#32 0x4E#32) 0x40 helloFrame)) = some (0x62#32, some 0#32) ∧
    post (exec .decrypt (args (dev 0x200#32) 0x40#32 7#32 0#32 2#32 0#32 0x80#32)) = some (0x32#32, some 0#32) := by
  decide

/-! ### Steps of the engine and the host -/

/-- Vector K12: an illegal word ends as IllegalCommand before anything else is checked. -/
theorem test_step_illegalWord : post (step (issued (dev 0x3#32) 0x8#32 0)) = some (0x42#32, some 0#32) := by decide

/-- Program P5: the host's write first is a HazardWrite, the engine first is not. -/
theorem test_step_hazard_orders :
    post (step (lines (issued (dev 0x0#32) 0x1#32 3) [.wr 0x28 0x5A#32])) = some (0x206#32, none) ∧
    regOf .keyLen (step (lines (issued (dev 0x0#32) 0x1#32 3) [.wr 0x1C 0x5A#32])) = some none ∧
    post (step (lines (issued (dev 0x0#32) 0x1#32 0) [.wr 0x28 0x5A#32])) = some (0x2#32, some 1#32) := by decide

/-- Program P3, lines 25 to 29: a CMD write is ignored while FAULT = 1, and reset clears the fault. -/
theorem test_step_fault_sticks :
    let s := { dev 0x101#32 with status := 0x106#32, cmd := some 0x3#32 }
    regOf .cmd (step (lines s [.wr 0x08 0x2#32])) = some (some 0x3#32) ∧
    regOf .status (step (lines s [.wr 0x08 0x2#32])) = some (some 0x106#32) ∧
    regOf .status (step (lines s [.rst])) = some (some 0x0#32) ∧
    regOf .config (step (lines s [.rst])) = some (some 0x0#32) := by decide

/-- 20_memory.md R83 and 10_state.md R31: reads of ID, BUFSIZE and a reserved offset. -/
theorem test_step_reads :
    lastRead (step (lines (dev 0x0#32) [.rd 0x00])) = some (.reg 0x00 0x57430001#32) ∧
    lastRead (step (lines (dev 0x0#32) [.rd 0x30])) = some (.reg 0x30 0x1000#32) ∧
    lastRead (step (lines (dev 0x0#32) [.rd 0x3C])) = some (.reg 0x3C 0x0#32) ∧
    lastRead (step (lines (wordDev 0x0#32) [.lb 3])) = some (.buf 3 0x11#8) := by decide

/-! ### Witnesses: a state and operands that meet the hypotheses of each statement, clause by clause -/

/-- Hypotheses of IllegalWordsEndAsIllegalCommand: illegal words at the edges of each field, on the engine's turn. -/
theorem wit_IllegalWordsEndAsIllegalCommand :
    let s := issued (dev 0x0#32) 0x8#32 0
    s.cmd = some 0x8#32 ∧ engineTurn s = true ∧ ¬ legal 0x8#32 ∧ ¬ legal 0x0#32 ∧
      ¬ legal 0x11#32 ∧ ¬ legal 0x101#32 ∧ ¬ legal 0x403#32 ∧ ¬ legal 0xFFFFFFFF#32 := by decide

/-- Both hypotheses of DecodeByOpcode, at the first and the last legal word and beside them. -/
theorem wit_DecodeByOpcode : legal 0x1#32 ∧ legal 0x303#32 ∧ legal 0x7#32 ∧ ¬ legal 0x0#32 ∧ ¬ legal 0x8#32 ∧ ¬ legal 0x304#32 := by
  decide

/-- The hypothesis of DecodeAndEncodeAgree. -/
theorem wit_DecodeAndEncodeAgree : decode 0x303#32 = .ok .transformDecIv := by decide

/-- The hypotheses of ConfigValidity's last clause. -/
theorem wit_ConfigValidity : (dev 0x1#32).config = some 0x1#32 ∧ configValid 0x1#32 = false := by decide

/-- The hypothesis of ConfigQuantities, at the smallest and the largest CONFIG, with and without a marker. -/
theorem wit_ConfigQuantities : configValid 0x0#32 = true ∧ configValid 0x352#32 = true ∧ markerLen 0x0#32 = 0 := by decide

/-- The members that ResetValues names. -/
theorem wit_ResetValues :
    Reg.config ∈ [Reg.config, .cmd, .status, .srcPtr, .srcLen, .keyPtr, .keyLen, .ivPtr, .dstPtr, .data, .resLen] ∧
      0x3C ∈ [0x34, 0x38, 0x3C] := by decide

/-- The hypotheses of StepKeepsTheInvariant: an idle device, a pending command, a HazardWrite's undefined registers. -/
theorem wit_StepKeepsTheInvariant :
    (dev 0x0#32).Inv ∧ (issued (wordDev 0x102#32) 0x1#32 0).Inv ∧
    ({ dev 0x0#32 with status := 0x206#32, data := none, resLen := none, config := none } : State).Inv ∧
    ∃ t, step (issued (wordDev 0x102#32) 0x1#32 0) = .next t := ⟨by decide, by decide, by decide, _, rfl⟩

/-- The hypotheses of StatusFieldsExclude. -/
theorem wit_StatusFieldsExclude :
    (issued (dev 0x0#32) 0x1#32 0).Inv ∧ busy (issued (dev 0x0#32) 0x1#32 0) = true ∧
    ({ dev 0x0#32 with status := 0x106#32 } : State).Inv ∧ faulted { dev 0x0#32 with status := 0x106#32 } = true ∧
    fcause { dev 0x0#32 with status := 0x106#32 } ≠ 0 := by decide

/-- The hypotheses of ConstantRegisters, at both offsets. -/
theorem wit_ConstantRegisters :
    busy (dev 0x0#32) = false ∧ (lines (dev 0x0#32) [.wr 0x00 0x5#32]).host = [.wr 0x00 0x5#32] ∧
    (lines (dev 0x0#32) [.wr 0x30 0x5#32]).host = [.wr 0x30 0x5#32] ∧
    ∃ t, step (lines (dev 0x0#32) [.wr 0x30 0x5#32]) = .next t := ⟨by decide, rfl, rfl, _, rfl⟩

/-- The hypotheses of HostRegisterReads: the first and the last offset, a register that holds a value, one that is
undefined, and a reserved offset. -/
theorem wit_HostRegisterReads :
    let s := { dev 0x0#32 with status := 0x206#32, data := none }
    busy s = false ∧ (lines s [.rd 0x3C]).host = [.rd 0x3C] ∧ (0x3C % 4 = 0 ∧ 0x3C ≤ 0x3C) ∧ (0x00 % 4 = 0 ∧ 0x00 ≤ 0x3C) ∧
    (regOffset .id = 0x00 ∧ reg s .id = some 0x57430001#32) ∧ (regOffset .data = 0x28 ∧ reg s .data = none) := by decide

/-- The hypotheses of HostRegisterWrites: an argument register, an ignored offset, CMD with FAULT 1 and with FAULT 0. -/
theorem wit_HostRegisterWrites :
    let f := { dev 0x0#32 with status := 0x106#32 }
    busy (dev 0x0#32) = false ∧ busy f = false ∧ faulted f = true ∧ faulted (dev 0x0#32) = false ∧
    (lines f [.wr 0x28 1#32]).host = [.wr 0x28 1#32] ∧ (.data ∈ argRegs ∧ regOffset .data = 0x28) ∧
    (.config ∈ argRegs ∧ regOffset .config = 0x04) ∧ (0x08 % 4 = 0 ∧ 0x08 ≤ 0x3C) ∧ (0x3C % 4 = 0 ∧ 0x3C ≤ 0x3C) := by
  decide

/-- The hypotheses of HostBufferAccesses, at the first and the last byte, one defined and one not. -/
theorem wit_HostBufferAccesses :
    busy (wordDev 0x0#32) = false ∧ 0 < (wordDev 0x0#32).bufSize.toNat ∧ 0xFFF < (wordDev 0x0#32).bufSize.toNat ∧
    Memory.read? (wordDev 0x0#32).mem 0 = some 0x44#8 ∧ Memory.read? (wordDev 0x0#32).mem 0xFFF = none ∧
    (lines (wordDev 0x0#32) [.lb 0]).host = [.lb 0] ∧ (lines (wordDev 0x0#32) [.sb 0xFFF 1#8]).host = [.sb 0xFFF 1#8] := by
  decide

/-- The hypotheses of RefusedAccesses, at the first offset past each space, a misaligned one, and the last legal ones. -/
theorem wit_RefusedAccesses :
    busy (dev 0x0#32) = false ∧
    (lines (dev 0x0#32) [.rd 0x40]).host = [.rd 0x40] ∧ ¬ (0x40 % 4 = 0 ∧ 0x40 ≤ 0x3C) ∧ ¬ (0x3A % 4 = 0 ∧ 0x3A ≤ 0x3C) ∧
    ¬ 0x1000 < (dev 0x0#32).bufSize.toNat ∧ 0xFFF < (dev 0x0#32).bufSize.toNat ∧ (0x3C % 4 = 0 ∧ 0x3C ≤ 0x3C) := by decide

/-- The hypotheses of RefusedWhileBusy. -/
theorem wit_RefusedWhileBusy :
    let s := lines (issued (dev 0x0#32) 0x1#32 1) [.wr 0x40 1#32]
    busy s = true ∧ engineTurn s = false ∧ s.host = [.wr 0x40 1#32] ∧ ¬ (0x40 % 4 = 0 ∧ 0x40 ≤ 0x3C) := by decide

/-- The hypotheses of HazardWriteFault: a register write and a byte write, before and after the engine step, and a CMD
write behind it. -/
theorem wit_HazardWriteFault :
    let s := lines (issued (dev 0x0#32) 0x1#32 1) [.wr 0x3C 1#32, .wr 0x08 1#32]
    let q := lines (issued (dev 0x0#32) 0x1#32 0) [.sb 0xFFF 1#8]
    (busy s = true ∧ s.host = [.wr 0x3C 1#32, .wr 0x08 1#32] ∧ 0x3C % 4 = 0 ∧ 0x3C ≤ 0x3C ∧ engineTurn s = false) ∧
    (busy q = true ∧ q.host = [.sb 0xFFF 1#8] ∧ 0xFFF < q.bufSize.toNat ∧ engineTurn q = true) := by decide

/-- The hypotheses of ReadsWhileBusy. -/
theorem wit_ReadsWhileBusy :
    let s := issued (dev 0x0#32) 0x1#32 1
    busy s = true ∧ engineTurn (lines s [.rd 0x3C]) = false ∧ (lines s [.rd 0x3C]).host = [.rd 0x3C] ∧
    engineTurn (lines s [.lb 0xFFF]) = false ∧ (lines s [.lb 0xFFF]).host = [.lb 0xFFF] ∧
    (0x3C % 4 = 0 ∧ 0x3C ≤ 0x3C) ∧ 0xFFF < s.bufSize.toNat ∧
    (.dstPtr ∈ steadyRegs ∧ regOffset .dstPtr = 0x24 ∧ reg s .dstPtr = some 0#32) := by decide

/-- The hypotheses of PollReadsStatus, busy and idle. -/
theorem wit_PollReadsStatus :
    engineTurn (lines (issued (dev 0x0#32) 0x1#32 1) [.poll]) = false ∧ engineTurn (lines (dev 0x0#32) [.poll]) = false ∧
    (lines (dev 0x0#32) [.poll]).host = [.poll] := by decide

/-- The hypotheses of CfgLineValue, at the smallest and the largest values. -/
theorem wit_CfgLineValue :
    (1 ∈ [1, 2, 4] ∧ 8 ∈ [8, 16, 32, 64, 128, 256] ∧ 0 ∈ [0, 1]) ∧ (4 ∈ [1, 2, 4] ∧ 256 ∈ [8, 16, 32, 64, 128, 256] ∧ 1 ∈ [0, 1]) := by
  decide

/-- The hypotheses of IssuedCommandRuns. -/
theorem wit_IssuedCommandRuns :
    let s := lines (dev 0x0#32) (lineRun .encrypt)
    busy s = false ∧ faulted s = false ∧ s.host = lineCmd .encrypt ++ [.poll] ∧
    (issued (dev 0x0#32) 0x6#32 0).cmd = some (encode .encrypt) ∧ engineTurn (issued (dev 0x0#32) 0x6#32 0) = true := by
  decide

/-- The hypotheses of HostByteLines, up to the last byte of the buffer, with bytes that are defined and bytes that are not. -/
theorem wit_HostByteLines :
    let s := put (dev 0x0#32) 0xFFE [7#8]
    busy s = false ∧ 0xFFE + [1#8, 2#8].length ≤ s.bufSize.toNat ∧
    (lines s (lineSbs 0xFFE [1#8, 2#8])).host = lineSbs 0xFFE [1#8, 2#8] ++ [] ∧
    (lines s (lineLbs 0xFFE 2)).host = lineLbs 0xFFE 2 ++ [] ∧ 0xFFE + 2 ≤ s.bufSize.toNat ∧
    Memory.read? s.mem (0xFFE + 0) = some 7#8 ∧ Memory.read? s.mem (0xFFE + 1) = none := by decide

/-- The hypotheses of ResetLine, with and without a pending command. -/
theorem wit_ResetLine :
    engineTurn (lines (issued (dev 0x0#32) 0x1#32 1) [.rst]) = false ∧ engineTurn (lines (dev 0x0#32) [.rst]) = false ∧
    (lines (dev 0x0#32) [.rst]).host = [.rst] := by decide

/-- The hypotheses of ResetLine's second clause. -/
theorem wit_ResetLine_fault :
    let s := lines { dev 0x0#32 with status := 0x206#32 } [.rst]
    busy s = false ∧ faulted s = true ∧ ∃ t, step s = .next t ∧ faulted t = false := ⟨by decide, by decide, _, rfl, by decide⟩

/-- The hypotheses of IdleDeviceWaits: the reset state, and an idle device that a CMD write makes busy. -/
theorem wit_IdleDeviceWaits :
    busy State.reset = false ∧ State.reset.host = [] ∧ busy (lines (dev 0x0#32) [.wr 0x08 1#32]) = false ∧
    ∃ t, step (lines (dev 0x0#32) [.wr 0x08 1#32]) = .next t ∧ busy t = true := ⟨by decide, rfl, by decide, _, rfl, by decide⟩

/-- The hypotheses of FaultClearedOnlyByReset, with reset next and with a CMD write next. -/
theorem wit_FaultClearedOnlyByReset :
    (faulted (lines { dev 0x0#32 with status := 0x206#32 } [.rst]) = true ∧
      busy (lines { dev 0x0#32 with status := 0x206#32 } [.rst]) = false ∧
      ∃ t, step (lines { dev 0x0#32 with status := 0x206#32 } [.rst]) = .next t) ∧
    (∃ t, step (lines { dev 0x0#32 with status := 0x106#32 } [.wr 0x08 1#32]) = .next t) ∧
    (busy (dev 0x0#32) = false ∧ faulted (dev 0x0#32) = false ∧
      (lines (dev 0x0#32) [.wr 0x08 1#32]).host = [.wr 0x08 1#32]) :=
  ⟨⟨by decide, by decide, _, rfl⟩, ⟨_, rfl⟩, by decide⟩

/-- The hypotheses of StepRunsTheDecodedCommand: no delay, and a delay with no host line left. -/
theorem wit_StepRunsTheDecodedCommand :
    busy (issued (dev 0x0#32) 0x303#32 5) = true ∧ (issued (dev 0x0#32) 0x303#32 5).host = [] ∧
    (issued (dev 0x0#32) 0x303#32 0).delay = 0 ∧ (issued (dev 0x0#32) 0x303#32 5).cmd = some 0x303#32 ∧
    decode 0x303#32 = .ok .transformDecIv := by decide

/-- The hypotheses of ErrorCompletion, and of the first clause of FaultCompletion. -/
theorem wit_Completions :
    (∃ t, exec .derive (dev 0x0#32) = .next t ∧ faulted t = false ∧ err t ≠ 0) ∧
    ∃ t, exec .readWord { dev 0x0#32 with srcPtr := some 0x1000#32 } = .next t ∧ faulted t = true :=
  ⟨⟨_, rfl, by decide, by decide⟩, _, rfl, by decide⟩

/-- The hypotheses of FaultCompletion's second clause: a CMD write, an argument write, a byte write at the last offset,
a register read and a byte read. -/
theorem wit_FaultCompletion :
    let s := { wordDev 0x0#32 with status := 0x106#32 }
    s.status = 0x106#32 ∧ (∀ op ∈ [.wr 0x08 1#32, .wr (regOffset .data) 1#32, .sb 0xFFF 1#8, .rd (regOffset .resLen), .lb 3, .poll],
      (lines s [op]).host = [op] ∧ ordinary s op) ∧ .data ∈ argRegs ∧ reg s .resLen = some 0#32 ∧
    Memory.read? s.mem 3 = some 0x11#8 :=
  ⟨rfl, by simp [lines, ordinary, regOffset, wordDev, put, dev], by decide, rfl, by decide⟩

/-- The hypotheses of RegisterFrame and of MemoryFrame, with a byte on each side of the region stored to, and an abort. -/
theorem wit_Frames :
    (∃ t, exec .encrypt (helloDev 0x301#32 0x20#32 5#32 0x10#32 0x40#32) = .next t) ∧
    storeRegion .encrypt (helloDev 0x301#32 0x20#32 5#32 0x10#32 0x40#32) = ⟨0x40, 15⟩ ∧ (0x3F < 0x40 ∧ 0x40 + 15 ≤ 0x4F) ∧
    (∃ t, exec .derive (dev 0x0#32) = .next t ∧ t.status ≠ 0x2#32) ∧ ∃ t, exec .readWord (dev 0x0#32) = .next t :=
  ⟨⟨_, rfl⟩, by decide, by decide, ⟨_, rfl, by decide⟩, _, rfl⟩

/-- The hypotheses of StoredBytesAreDefined, at the first and the last byte of the region. -/
theorem wit_StoredBytesAreDefined :
    (∃ t, exec .encrypt (helloDev 0x301#32 0x20#32 5#32 0x10#32 0xFF1#32) = .next t ∧ t.status = 0x2#32) ∧
    storeRegion .encrypt (helloDev 0x301#32 0x20#32 5#32 0x10#32 0xFF1#32) = ⟨0xFF1, 15⟩ ∧ 0xFFF < 0xFF1 + 15 :=
  ⟨⟨_, rfl, by decide⟩, by decide, by decide⟩

/-- The hypotheses of InputsAreNeverMutated: the IV of an ENCRYPT, at its last byte. -/
theorem wit_InputsAreNeverMutated :
    (∃ t, exec .encrypt (helloDev 0x301#32 0x20#32 5#32 0x10#32 0x40#32) = .next t) ∧
    ⟨0x10, 8⟩ ∈ inputRegions .encrypt (helloDev 0x301#32 0x20#32 5#32 0x10#32 0x40#32) ∧ 0x10 ≤ 0x17 ∧ 0x17 < 0x10 + 8 :=
  ⟨⟨_, rfl⟩, by decide, by decide, by decide⟩

/-- The hypotheses of UnreadRegistersHaveNoEffect: IV_PTR, which ENCRYPT reads only when IVSRC = 1. -/
theorem wit_UnreadRegistersHaveNoEffect :
    (helloDev 0x101#32 0x20#32 5#32 0x10#32 0x40#32).config = some 0x101#32 ∧ .ivPtr ∈ argRegs ∧
    .ivPtr ∉ readsRegs .encrypt 0x101#32 ∧ .ivPtr ∈ readsRegs .encrypt 0x301#32 ∧
    ∃ t, exec .encrypt (helloDev 0x101#32 0x20#32 5#32 0x10#32 0x40#32) = .next t :=
  ⟨rfl, by decide, by decide, by decide, _, rfl⟩

/-- The hypotheses of ReadWordResult: in range to the last byte, and one byte further. -/
theorem wit_ReadWordResult :
    let s := dev 0x102#32
    s.config = some 0x102#32 ∧ s.srcPtr = some 0#32 ∧ configValid 0x102#32 = true ∧ inside s (0xFFC, wordSize 0x102#32) ∧
    ¬ inside s (0xFFD, wordSize 0x102#32) ∧ configValid 0x3#32 = false := by decide

/-- The hypotheses of WriteWordResult. -/
theorem wit_WriteWordResult :
    let s := dev 0x101#32
    s.config = some 0x101#32 ∧ s.dstPtr = some 0#32 ∧ s.data = some 0#32 ∧ configValid 0x101#32 = true ∧
    inside s (0xFFE, wordSize 0x101#32) ∧ ¬ inside s (0xFFF, wordSize 0x101#32) := by decide

/-- The hypotheses of TransformResult, with every check met, and one check missed by one: the key, the length, the
range of the input and of the destination, the overlap. -/
theorem wit_TransformResult :
    let s := args (dev 0x101#32) 0x10#32 4#32 0#32 2#32 0x30#32 0x14#32
    (s.config = some 0x101#32 ∧ s.srcPtr = some 0x10#32 ∧ s.srcLen = some 4#32 ∧ s.keyPtr = some 0#32 ∧
      s.keyLen = some 2#32 ∧ s.ivPtr = some 0x30#32 ∧ s.dstPtr = some 0x14#32) ∧
    (configValid 0x101#32 = true ∧ goodKey 2 2 ∧ 4 % 2 = 0 ∧ (inside s (0x10, 4) ∧ inside s (0, 2) ∧ inside s (0x30, 8)) ∧
      inside s (0x14, 4) ∧ (¬ meets (0x14, 4) (0x10, 4) ∧ ¬ meets (0x14, 4) (0, 2) ∧ ¬ meets (0x14, 4) (0x30, 8))) ∧
    (¬ goodKey 2 3 ∧ ¬ goodKey 2 0 ∧ 3 % 2 ≠ 0 ∧ ¬ inside s (0xFFE, 4) ∧ meets (0x13, 4) (0x10, 4)) := by decide

/-- The hypotheses of DeriveResult, with every check met, and the checks missed by one. -/
theorem wit_DeriveResult :
    let s := args (dev 0x0#32) 0#32 0#32 0#32 2#32 0x10#32 0x18#32
    (s.config = some 0x0#32 ∧ s.keyPtr = some 0#32 ∧ s.keyLen = some 2#32 ∧ s.ivPtr = some 0x10#32 ∧ s.dstPtr = some 0x18#32) ∧
    (configValid 0x0#32 = true ∧ goodKey 1 2 ∧ (inside s (0, 2) ∧ inside s (0x10, 8)) ∧ inside s (0x18, 2) ∧
      ¬ meets (0x18, 2) (0, 2) ∧ ¬ meets (0x18, 2) (0x10, 8)) ∧
    (¬ goodKey 1 0 ∧ ¬ inside s (0xFF9, 8) ∧ ¬ inside s (0xFFF, 2) ∧ meets (0x17, 2) (0x10, 8)) := by decide

/-- The hypotheses of RngFillResult: in range to the last byte, one byte further, and no byte at all. -/
theorem wit_RngFillResult :
    let s := args (dev 0x102#32) 0#32 5#32 0#32 0#32 0#32 0xFF8#32
    s.config = some 0x102#32 ∧ s.srcLen = some 5#32 ∧ s.dstPtr = some 0xFF8#32 ∧ configValid 0x102#32 = true ∧
    inside s (0xFF8, 8) ∧ ¬ inside s (0xFF9, 8) ∧ inside s (0xFFFFFFFF, 0) := by decide

/-- The hypotheses of EncryptResult, with IVSRC = 1 and every check met, and the checks missed by one (E12, E15). -/
theorem wit_EncryptResult :
    let s := helloDev 0x301#32 0x20#32 5#32 0x10#32 0xFF1#32
    (s.config = some 0x301#32 ∧ s.srcPtr = some 0x20#32 ∧ s.srcLen = some 5#32 ∧ s.keyPtr = some 0#32 ∧
      s.keyLen = some 4#32 ∧ (0x301#32).getLsbD 9 = true ∧ s.ivPtr = some 0x10#32 ∧ s.dstPtr = some 0xFF1#32) ∧
    (configValid 0x301#32 = true ∧ goodKey 2 4 ∧ (inside s (0x20, 5) ∧ inside s (0, 4) ∧ inside s (0x10, 8)) ∧
      inside s (0xFF1, 15) ∧ ¬ meets (0xFF1, 15) (0x20, 5) ∧ ¬ meets (0xFF1, 15) (0, 4) ∧ ¬ meets (0xFF1, 15) (0x10, 8)) ∧
    (¬ goodKey 2 3 ∧ ¬ inside s (0xFF9, 8) ∧ ¬ inside s (0xFF2, 15) ∧ meets (0x24, 15) (0x20, 5)) := by decide

/-- The hypotheses of DecryptResult, with every check met, and a frame one byte too short. -/
theorem wit_DecryptResult :
    let s := put (helloDev 0x301#32 0x40#32 15#32 0#32 0x4F#32) 0x40 helloFrame
    (s.config = some 0x301#32 ∧ s.srcPtr = some 0x40#32 ∧ s.srcLen = some 15#32 ∧ s.keyPtr = some 0#32 ∧
      s.keyLen = some 4#32 ∧ s.dstPtr = some 0x4F#32) ∧
    memRead s .src 0x40 15 = helloFrame ∧
    (configValid 0x301#32 = true ∧ goodKey 2 4 ∧ (inside s (0x40, 15) ∧ inside s (0, 4)) ∧
      ¬ (15 < 1 + 8 ∨ (helloFrame.drop 9).length % 2 ≠ 0 ∨ (helloFrame.headD 0#8).toNat ≥ 2 ∨
        (helloFrame.headD 0#8).toNat > (helloFrame.drop 9).length) ∧
      inside s (0x4F, 5) ∧ ¬ meets (0x4F, 5) (0x40, 15) ∧ ¬ meets (0x4F, 5) (0, 4)) ∧
    (8 < 1 + 8 ∧ meets (0x4E, 5) (0x40, 15) ∧ ¬ inside s (0xFFC, 5)) := by decide

/-- The hypotheses inside RangeAndOverlap: a byte of a region, and a byte of two regions. -/
theorem wit_RangeAndOverlap :
    (0xFF8 ≤ 0xFFF ∧ 0xFFF < 0xFF8 + 8) ∧ overlap ⟨0x10, 4⟩ ⟨0x13, 4⟩ = true ∧ inRange (dev 0x0#32) ⟨0xFF8, 8⟩ = true := by
  decide

/-- The hypothesis of LittleEndianWords, at the first and the last byte. -/
theorem wit_LittleEndianWords : 0 < 4 ∧ 3 < 4 := by decide

/-- The hypotheses of WrittenWordReadsBack and of WrittenWordBytes. -/
theorem wit_WrittenWords :
    let s := { dev 0x102#32 with dstPtr := some 1#32, data := some 0x11223344#32 }
    s.config = some 0x102#32 ∧ s.dstPtr = some 1#32 ∧ s.data = some 0x11223344#32 ∧ 3 < wordSize 0x102#32 ∧
    ∃ t, exec .writeWord s = .next t ∧ t.status = 0x2#32 := ⟨rfl, rfl, rfl, by decide, _, rfl, by decide⟩

/-- The hypotheses of TransformWords and of TransformInverse, with an IV and without one, at the last word. -/
theorem wit_TransformWords :
    4 ∈ [1, 2, 4] ∧ (List.replicate 8 0xFF#8).length % 4 = 0 ∧ goodKey 4 (List.replicate 4 1#8).length ∧
    (∀ S, some (List.replicate 8 2#8) = some S → goodKey 4 S.length) ∧
    (∀ S, (none : Option (List Byte)) = some S → goodKey 4 S.length) ∧ 1 < (List.replicate 8 0xFF#8).length / 4 :=
  ⟨by decide, by decide, by decide, by rintro S ⟨⟩; decide, by rintro S ⟨⟩, by decide⟩

/-- The hypotheses of DerivedKeyWords and of EncryptBodyWords, with an all-zero IV and at the last word. -/
theorem wit_DerivedKeyWords :
    2 ∈ [1, 2, 4] ∧ goodKey 2 [0x11#8, 0x22#8, 0x33#8, 0x44#8].length ∧ goodKey 2 (List.replicate 8 0#8).length ∧
    1 < [0x11#8, 0x22#8, 0x33#8, 0x44#8].length / 2 ∧ (∀ b ∈ List.replicate 8 0#8, b = 0#8) ∧
    2 < (pad 2 [0x48#8, 0x65#8, 0x6C#8, 0x6C#8, 0x6F#8]).length / 2 := by decide

/-- The hypotheses of PaddingAndFrame: the largest padding with a marker, and no marker. -/
theorem wit_PaddingAndFrame : (4 ∈ [1, 2, 4] ∧ 1 ≤ 1 ∧ 3 < 4) ∧ (1 ∈ [1, 2, 4] ∧ 0 ≤ 1 ∧ 0 < 1) := by decide

/-- The state after vector F3's ENCRYPT at 0x40. -/
def helloDone : State :=
  stored (helloDev 0x301#32 0x20#32 5#32 0x10#32 0x40#32) 0x40 helloFrame 15

/-- The hypotheses of EncryptThenDecrypt: vector F3, the frame decrypted where it lies. -/
theorem wit_EncryptThenDecrypt :
    let s := helloDev 0x301#32 0x20#32 5#32 0x10#32 0x40#32
    let s' := args helloDone 0x40#32 15#32 0#32 4#32 0x10#32 0x4F#32
    (s.config = some 0x301#32 ∧ s.srcPtr = some 0x20#32 ∧ s.srcLen = some 5#32 ∧ s.keyPtr = some 0#32 ∧
      s.keyLen = some 4#32 ∧ s.dstPtr = some 0x40#32) ∧
    (exec .encrypt s = .next helloDone ∧ helloDone.status = 0x2#32 ∧ helloDone.resLen = some 15#32) ∧
    (s'.config = some 0x301#32 ∧ s'.srcPtr = some 0x40#32 ∧ s'.srcLen = some 15#32 ∧ s'.keyPtr = some 0#32 ∧
      s'.keyLen = some 4#32 ∧ s'.dstPtr = some 0x4F#32) ∧
    (inside s' (0x40, 15) ∧ inside s' (0, 4) ∧ inside s' (0x4F, 5)) ∧
    (¬ meets (0x4F, 5) (0x40, 15) ∧ ¬ meets (0x4F, 5) (0, 4)) ∧
    (∀ j, j < 15 → Memory.read? s'.mem (0x40 + j) = Memory.read? helloDone.mem (0x40 + j)) ∧
    memRead s' .key 0 4 = memRead s .key 0 4 :=
  ⟨by decide, ⟨by rfl, by decide, by decide⟩, by decide, by decide, by decide, fun _ _ => rfl, by decide⟩

/-- The hypotheses of EncryptDeterministicUnderFixedIv: F3's setup at two events and two destinations (vector F8). -/
theorem wit_EncryptDeterministicUnderFixedIv :
    let s := helloDev 0x301#32 0x20#32 5#32 0x10#32 0x40#32
    let s' := { helloDev 0x301#32 0x20#32 5#32 0x10#32 0x80#32 with events := 7 }
    let P := [0x48#8, 0x65#8, 0x6C#8, 0x6C#8, 0x6F#8]
    let K := [0x11#8, 0x22#8, 0x33#8, 0x44#8]
    let V := [0#8, 1#8, 2#8, 3#8, 4#8, 5#8, 6#8, 7#8]
    ((0x301#32).getLsbD 9 = true ∧ s.config = some 0x301#32 ∧ s'.config = some 0x301#32 ∧ s.srcLen = some 5#32 ∧
      s'.srcLen = some 5#32 ∧ s.keyLen = some 4#32 ∧ s'.keyLen = some 4#32) ∧
    (s.srcPtr = some 0x20#32 ∧ s'.srcPtr = some 0x20#32 ∧ s.keyPtr = some 0#32 ∧ s'.keyPtr = some 0#32 ∧
      s.ivPtr = some 0x10#32 ∧ s'.ivPtr = some 0x10#32 ∧ s.dstPtr = some 0x40#32 ∧ s'.dstPtr = some 0x80#32) ∧
    (P.length = 5 ∧ ∀ j, j < 5 → Memory.read? s.mem (0x20 + j) = P[j]? ∧ Memory.read? s'.mem (0x20 + j) = P[j]?) ∧
    (K.length = 4 ∧ ∀ j, j < 4 → Memory.read? s.mem (0 + j) = K[j]? ∧ Memory.read? s'.mem (0 + j) = K[j]?) ∧
    (V.length = ivLength 0x301#32 ∧
      ∀ j, j < ivLength 0x301#32 → Memory.read? s.mem (0x10 + j) = V[j]? ∧ Memory.read? s'.mem (0x10 + j) = V[j]?) ∧
    (∃ t, exec .encrypt s = .next t ∧ t.status = 0x2#32) ∧ ∃ t, exec .encrypt s' = .next t ∧ t.status = 0x2#32 :=
  ⟨by decide, by decide, by decide, by decide, by decide, ⟨_, rfl, by decide⟩, _, rfl, by decide⟩

/-- The hypotheses of DecryptCannotTellAWrongKey: F3's frame, and a buffer with another first key byte. -/
theorem wit_DecryptCannotTellAWrongKey :
    let s := put (helloDev 0x301#32 0x40#32 15#32 0#32 0x80#32) 0x40 helloFrame
    (∃ t, exec .decrypt s = .next t) ∧ srcRegion s = ⟨0x40, 15⟩ ∧
    ∀ a, 0x40 ≤ a → a < 0x40 + 15 → Memory.read? (Memory.write s.mem 0 0xEE#8) a = Memory.read? s.mem a :=
  ⟨⟨_, rfl⟩, by decide, fun a h _ => by rw [read?_write, if_neg (by omega)]⟩

/-- The hypotheses of PendingCommandCompletes: a poll and a read still to come, at the last offsets. -/
theorem wit_PendingCommandCompletes :
    let s := lines (issued (dev 0x0#32) 0x1#32 2) [.rd 0x3C, .lb 0xFFF, .poll]
    busy s = true ∧ ∀ op ∈ s.host, readOnly s op :=
  ⟨by decide, by simp [lines, issued, dev, readOnly]⟩

/-- The hypotheses of OnlyTheEngineEndsBusy. -/
theorem wit_OnlyTheEngineEndsBusy :
    let s := lines (issued (dev 0x0#32) 0x1#32 2) [.rd 0x0C]
    busy s = true ∧ engineTurn s = false ∧ ∃ t, step s = .next t := ⟨by decide, by decide, _, rfl⟩

end Sys2Proof.Tests
end

section
/-! PROOFS. 10_state.md: which CONFIG values are valid and what an invalid one does (R39), and the constant registers
ID and BUFSIZE (R31, R44). -/

namespace Sys2Proof.Proofs.StateFamily

open Sys2Proof Sys2Proof.Machine Sys2Proof.Claims

/-! ### CONFIG (10_state.md R39) -/

/-- The reserved bits of CONFIG, by number (10_state.md R39). -/
abbrev ReservedConfigBit (n : Nat) : Prop := n = 2 ∨ n = 3 ∨ n = 7 ∨ n = 10 ∨ n = 11 ∨ (13 ≤ n ∧ n ≤ 31)

theorem getLsbD_configReserved (n : Nat) : configReserved.getLsbD n = true ↔ ReservedConfigBit n := by
  have below : ∀ k < 32, configReserved.getLsbD k = true ↔ ReservedConfigBit k := by decide
  by_cases hn : n < 32
  · exact below n hn
  · rw [BitVec.getLsbD_of_ge configReserved n (by omega)]
    simp only [Bool.false_eq_true, false_iff]
    omega

/-- A mask reads 0 exactly when every bit it selects is clear. -/
theorem and_eq_zero_iff_getLsbD {w : Nat} (x mask : BitVec w) :
    x &&& mask = 0#w ↔ ∀ n, mask.getLsbD n = true → x.getLsbD n = false := by
  constructor
  · intro h n hn
    have hbit : (x &&& mask).getLsbD n = false := by rw [h, BitVec.getLsbD_zero]
    simpa [hn] using hbit
  · intro h
    refine BitVec.eq_of_getLsbD_eq fun n _ => ?_
    rw [BitVec.getLsbD_and, BitVec.getLsbD_zero]
    cases hm : mask.getLsbD n with
    | false => exact Bool.and_false _
    | true => rw [h n hm, Bool.false_and]

theorem and_configReserved_eq_zero_iff (c : Word32) :
    c &&& configReserved = 0#32 ↔ ∀ n, ReservedConfigBit n → c.getLsbD n = false := by
  simp only [and_eq_zero_iff_getLsbD, getLsbD_configReserved]

theorem bits_one_eq_zero_iff (v : Word32) (n : Nat) : bits v n n = 0 ↔ v.getLsbD n = false := by
  cases h : v.getLsbD n <;> simp [bits_one, h]

theorem bits_one_eq_one_iff (v : Word32) (n : Nat) : bits v n n = 1 ↔ v.getLsbD n = true := by
  cases h : v.getLsbD n <;> simp [bits_one, h]

/-- `configValid`, conjunct by conjunct, over the bits of the word. -/
theorem configValid_iff (c : Word32) : configValid c = true ↔
    ((c.extractLsb 1 0).toNat ≠ 3 ∧ (c.extractLsb 6 4).toNat ≤ 5 ∧ c.getLsbD 12 = false ∧
      (c.getLsbD 8 = true ∨ (c.extractLsb 1 0).toNat = 0) ∧ ∀ n, ReservedConfigBit n → c.getLsbD n = false) := by
  simp only [configValid, Bool.and_eq_true, Bool.or_eq_true, bne_iff_ne, beq_iff_eq, decide_eq_true_eq,
    bits_one_eq_zero_iff, bits_one_eq_one_iff, bits_eq_extractLsb c 1 0, bits_eq_extractLsb c 6 4,
    and_configReserved_eq_zero_iff, and_assoc]

/-- Every command has the check of CONFIG before all others (60_exceptions.md R247, rank 2). -/
theorem exec_checks_config_first (i : Instr) (s : State) :
    ∃ (later : List Check) (effect : State), exec i s = runCommand s (configCheck s :: later) effect := by
  cases i <;> exact ⟨_, _, rfl⟩

/-- A command whose first check fails ends as that check says, whatever follows. -/
theorem runCommand_of_head_fails (s effect : State) (a : Abort) (later : List Check) :
    runCommand s ((false, a) :: later) effect = .next (abort s a) := rfl

theorem exec_of_invalid_config (i : Instr) (s : State) (h : configValid (configOf s) = false) :
    exec i s = .next (abort s (.error .invalidConfiguration)) := by
  obtain ⟨later, effect, he⟩ := exec_checks_config_first i s
  rw [he, configCheck, h, runCommand_of_head_fails]

/-- An error or a fault completion, as the statements write it. -/
theorem abort_eq_ended (s : State) (a : Abort) : abort s a = ended s (abortStatus a) := rfl

theorem abortStatus_invalidConfiguration : abortStatus (.error .invalidConfiguration) = 0x22#32 := by decide

/-- Settles O6: `configValid` read bit by bit, the bits of its mask, and the check of CONFIG that every command has
first. -/
theorem configValidity : Obligations.ConfigValidity := by
  refine ⟨configValid_iff, getLsbD_configReserved, fun i s c hc hinvalid => ?_⟩
  rw [exec_of_invalid_config i s (by rw [configOf_of_some s c hc, hinvalid]), abort_eq_ended,
    abortStatus_invalidConfiguration]

/-! ### BUFSIZE is changed by no step (10_state.md R44) -/

@[simp] theorem issue_bufSize (s : State) (v : Word32) : (issue s v).bufSize = s.bufSize := by
  unfold issue
  split <;> rfl

@[simp] theorem hazardWrite_bufSize (s : State) (target : Option Reg) :
    (hazardWrite s target).bufSize = s.bufSize := by
  obtain ⟨-, -, -, -, h, -⟩ := hazardWrite_effect s target
  exact h

@[simp] theorem hostWriteReg_bufSize (s : State) (o : Nat) (v : Word32) :
    (hostWriteReg s o v).bufSize = s.bufSize := by
  rcases hostWriteReg_cases s o v with ⟨-, h⟩ | ⟨-, h | ⟨-, h⟩ | ⟨r, -, -, h⟩⟩ <;> simp [h]

@[simp] theorem hostWriteByte_bufSize (s : State) (a : Nat) (b : Byte) :
    (hostWriteByte s a b).bufSize = s.bufSize := by
  unfold hostWriteByte
  split
  · exact hazardWrite_bufSize s none
  · rfl

theorem exec_bufSize (i : Instr) (s t : State) (h : exec i s = .next t) : t.bufSize = s.bufSize := by
  rcases exec_cases i s t h with ⟨a, -, rfl⟩ | ⟨v, n, -, rfl⟩ | ⟨bytes, -, -, -, rfl⟩ <;> simp

theorem hostAccess_bufSize (s t : State) (op : HostOp) (h : hostAccess s op = .next t) : t.bufSize = s.bufSize := by
  rcases hostAccess_cases s t op h with ⟨o, v, -, -, rfl⟩ | ⟨o, -, -, rfl⟩ | ⟨a, b, -, -, rfl⟩ | ⟨a, -, -, rfl⟩ |
    ⟨-, rfl⟩ | ⟨-, ⟨-, rfl⟩ | ⟨-, rfl⟩⟩ <;> simp

theorem step_bufSize (s t : State) (h : step s = .next t) : t.bufSize = s.bufSize := by
  rcases step_cases s t h with
    ⟨-, ⟨i, -, hexec⟩ | ⟨-, rfl⟩⟩ | ⟨-, ⟨-, rfl⟩ | ⟨op, rest, -, haccess⟩⟩
  · exact exec_bufSize i s t hexec
  · exact abort_bufSize s _
  · rfl
  · exact (hostAccess_bufSize _ t op haccess).trans (takeLine_bufSize s rest)

/-! ### Host accesses to the constant registers (20_memory.md R83, R84) -/

/-- A register that the device does not update while busy reads as its value, busy or not. -/
theorem hostReadReg_of_stable (s : State) (o : Nat) (r : Reg) (hr : regAt o = some r)
    (hstable : unstableWhileBusy r = false) : hostReadReg s o = regValue s r := by
  simp [hostReadReg, hr, hstable]

/-- While idle, a host write to a register that a host cannot write is ignored. -/
theorem hostWriteReg_of_not_writable (s : State) (o : Nat) (r : Reg) (v : Word32) (hidle : busy s = false)
    (hr : regAt o = some r) (hcmd : r ≠ .cmd) (hw : hostWritable r = false) : hostWriteReg s o v = s := by
  simp [hostWriteReg, hidle, hr, hcmd, hw]

/-- An idle device performs a register write at the head of the host's list. -/
theorem step_of_idle_write (s : State) (o : Nat) (v : Word32) (rest : List HostOp) (hidle : busy s = false)
    (hhost : s.host = .wr o v :: rest) (ho : regOffsetLegal o = true) :
    step s = .next (count (hostWriteReg (takeLine s rest) o v)) := by
  rw [step_of_hostLine s (.wr o v) rest (engineTurn_of_idle s hidle) hhost, hostAccess, if_pos ho]

/-- While idle, the host's write to ID or BUFSIZE takes the line and does nothing else. -/
theorem step_write_constant (s : State) (o : Nat) (v : Word32) (rest : List HostOp) (ho : o = 0x00 ∨ o = 0x30)
    (hidle : busy s = false) (hhost : s.host = .wr o v :: rest) : step s = .next (count (takeLine s rest)) := by
  have hignored : regOffsetLegal o = true ∧ hostWriteReg (takeLine s rest) o v = takeLine s rest := by
    rcases ho with rfl | rfl
    · exact ⟨rfl, hostWriteReg_of_not_writable _ _ .id v hidle rfl (by decide) rfl⟩
    · exact ⟨rfl, hostWriteReg_of_not_writable _ _ .bufSize v hidle rfl (by decide) rfl⟩
  rw [step_of_idle_write s o v rest hidle hhost hignored.1, hignored.2]

/-- Settles O12: ID has no field to change, every step keeps BUFSIZE, and neither is writable by the host. -/
theorem constantRegisters : Obligations.ConstantRegisters := by
  intro s
  refine ⟨⟨hostReadReg_of_stable s 0x00 .id rfl rfl, hostReadReg_of_stable s 0x30 .bufSize rfl rfl⟩,
    fun t ht => ⟨rfl, step_bufSize s t ht⟩, fun o v rest ho hidle hhost => ?_⟩
  exact ⟨_, step_write_constant s o v rest ho hidle hhost, fun r => by simp, by simp⟩

end Sys2Proof.Proofs.StateFamily
end

section
/-! PROOFS. The host's accesses to an idle device (20_memory.md R81 to R87): what each register offset and each buffer
byte answers, what a write changes, and which accesses are refused. -/

namespace Sys2Proof.Proofs.MemoryFamily

open Sys2Proof Sys2Proof.Machine Sys2Proof.Claims Sys2Proof.Proofs.StateFamily

/-! ### Which accesses exist (20_memory.md R81, R82) -/

theorem regOffsetLegal_iff (o : Nat) : regOffsetLegal o = true ↔ o % 4 = 0 ∧ o ≤ 0x3C := by
  simp [regOffsetLegal]

theorem bufOffsetLegal_iff (s : State) (a : Nat) : bufOffsetLegal s a = true ↔ a < s.bufSize.toNat := by
  simp [bufOffsetLegal]

/-- While idle, the host performs the line at the head of its list. -/
theorem step_of_idle_line (s : State) (op : HostOp) (rest : List HostOp) (hidle : busy s = false)
    (hhost : s.host = op :: rest) : step s = hostAccess (takeLine s rest) op :=
  step_of_hostLine s op rest (engineTurn_of_idle s hidle) hhost

/-! ### Register reads (20_memory.md R83) -/

theorem regValue_of_none (s : State) (r : Reg) (h : reg s r = none) :
    regValue s r = Config.draw32 s.events (regOffset r) := by
  rw [regValue, h, Option.getD_none]

theorem hostReadReg_of_idle (s : State) (r : Reg) (hidle : busy s = false) :
    hostReadReg s (regOffset r) = regValue s r := by
  simp [hostReadReg, hidle]

theorem hostReadReg_of_reserved (s : State) (o : Nat) (h : regAt o = none) : hostReadReg s o = 0#32 := by
  rw [hostReadReg, h]

/-- Taking the line off the host's list does not change what a register reads as. -/
@[simp] theorem hostReadReg_takeLine (s : State) (rest : List HostOp) (o : Nat) :
    hostReadReg (takeLine s rest) o = hostReadReg s o := by
  simp [hostReadReg, regValue]

/-- The three offsets past BUFSIZE hold no register (10_state.md R30). -/
theorem regAt_reserved (o : Nat) (h : o = 0x34 ∨ o = 0x38 ∨ o = 0x3C) : regAt o = none := by
  rcases h with rfl | rfl | rfl <;> rfl

/-- A host read takes the line, records its answer and does nothing else. -/
theorem answered_count_answer (s : State) (rest : List HostOp) (a : HostRead) :
    answered s (count (answer (takeLine s rest) a)) rest a :=
  ⟨rfl, rfl, fun q => by simp, rfl⟩

/-- An idle device performs a register read at the head of the host's list. -/
theorem step_of_idle_read (s : State) (o : Nat) (rest : List HostOp) (hidle : busy s = false)
    (hhost : s.host = .rd o :: rest) (ho : regOffsetLegal o = true) :
    step s = .next (count (answer (takeLine s rest) (.reg o (hostReadReg s o)))) := by
  rw [step_of_idle_line s _ rest hidle hhost, hostAccess, if_pos ho, hostReadReg_takeLine]

/-- Settles O13: a register offset reads as its register's value or a draw, a reserved one as 0, and the read only
records the answer. -/
theorem hostRegisterReads : Obligations.HostRegisterReads := by
  intro s o rest hidle hhost haligned hle
  have hlegal := (regOffsetLegal_iff o).2 ⟨haligned, hle⟩
  refine ⟨_, hostReadReg s o, step_of_idle_read s o rest hidle hhost hlegal, answered_count_answer s rest _, ?_, ?_,
    fun hreserved => hostReadReg_of_reserved s o (regAt_reserved o hreserved)⟩
  · rintro r x rfl hdefined
    rw [hostReadReg_of_idle s r hidle, regValue_of_some s r x hdefined]
  · rintro r rfl hundefined
    rw [hostReadReg_of_idle s r hidle, regValue_of_none s r hundefined]

/-! ### Register writes (20_memory.md R84, R85) -/

@[simp] theorem issue_mem (s : State) (v : Word32) : (issue s v).mem = s.mem := by
  unfold issue
  split <;> rfl

@[simp] theorem issue_host (s : State) (v : Word32) : (issue s v).host = s.host := by
  unfold issue
  split <;> rfl

@[simp] theorem issue_reads (s : State) (v : Word32) : (issue s v).reads = s.reads := by
  unfold issue
  split <;> rfl

theorem issue_of_faulted (s : State) (v : Word32) (h : faulted s = true) : issue s v = s := by
  rw [issue, if_pos h]

theorem issue_of_not_faulted (s : State) (v : Word32) (h : faulted s = false) :
    issue s v = { s with cmd := some v, status := busyStatus, delay := Config.latency s.events } := by
  rw [issue, h, if_neg Bool.false_ne_true]

theorem busyStatus_eq : busyStatus = 0x1#32 := by decide

/-- An issue leaves every register but CMD and STATUS as it was. -/
theorem reg_issue_ne (s : State) (v : Word32) (q : Reg) (hcmd : q ≠ .cmd) (hstatus : q ≠ .status) :
    reg (issue s v) q = reg s q := by
  unfold issue
  split
  · rfl
  · cases q with
    | cmd => exact absurd rfl hcmd
    | status => exact absurd rfl hstatus
    | _ => rfl

/-- While idle, a host write to a register changes no buffer byte and nothing on the host's side. -/
theorem hostWriteReg_frame (s : State) (o : Nat) (v : Word32) (hidle : busy s = false) :
    (hostWriteReg s o v).mem = s.mem ∧ (hostWriteReg s o v).host = s.host ∧
      (hostWriteReg s o v).reads = s.reads := by
  rcases hostWriteReg_cases s o v with ⟨hbusy, -⟩ | ⟨-, h | ⟨-, h⟩ | ⟨r, -, -, h⟩⟩
  · exact absurd hbusy (by simp [hidle])
  · simp [h]
  · simp [h]
  · simp [h]

/-- The registers that the statements call argument registers are those the host can write (20_memory.md R84). -/
theorem mem_argRegs_iff (r : Reg) : r ∈ argRegs ↔ hostWritable r = true := by
  cases r <;> decide

theorem hostWriteReg_of_writable (s : State) (r : Reg) (v : Word32) (hidle : busy s = false)
    (hw : hostWritable r = true) : hostWriteReg s (regOffset r) v = setReg s r (some v) := by
  have hcmd : r ≠ .cmd := by
    rintro rfl
    cases hw
  simp [hostWriteReg, hidle, hcmd, hw]

theorem hostWriteReg_of_reserved (s : State) (o : Nat) (v : Word32) (hidle : busy s = false) (h : regAt o = none) :
    hostWriteReg s o v = s := by
  simp [hostWriteReg, hidle, h]

theorem hostWriteReg_cmd (s : State) (v : Word32) (hidle : busy s = false) : hostWriteReg s 0x08 v = issue s v := by
  simp [hostWriteReg, hidle, regAt]

/-- A host-writable register is read back after the write, and every other register is as it was. -/
theorem reg_setReg_of_writable (s : State) (r : Reg) (v : Word32) (hw : hostWritable r = true) :
    reg (setReg s r (some v)) r = some v ∧ ∀ q, q ≠ r → reg (setReg s r (some v)) q = reg s q := by
  refine ⟨reg_setReg_self s r _ ⟨?_, ?_, ?_⟩, fun q hq => reg_setReg_ne s r q _ hq⟩ <;>
    · rintro rfl
      cases hw

/-- While idle, the write to a read-only register or a reserved offset is ignored (20_memory.md R84). -/
theorem hostWriteReg_of_ignored (s : State) (o : Nat) (v : Word32) (hidle : busy s = false)
    (ho : o = 0x00 ∨ o = 0x0C ∨ o = 0x2C ∨ o = 0x30 ∨ o = 0x34 ∨ o = 0x38 ∨ o = 0x3C) : hostWriteReg s o v = s := by
  rcases ho with rfl | rfl | rfl | rfl | hreserved
  · exact hostWriteReg_of_not_writable s _ .id v hidle rfl (by decide) rfl
  · exact hostWriteReg_of_not_writable s _ .status v hidle rfl (by decide) rfl
  · exact hostWriteReg_of_not_writable s _ .resLen v hidle rfl (by decide) rfl
  · exact hostWriteReg_of_not_writable s _ .bufSize v hidle rfl (by decide) rfl
  · exact hostWriteReg_of_reserved s o v hidle (regAt_reserved o hreserved)

/-- Settles O14: a write is a `setReg` at the offset of an argument register, an issue at CMD, and ignored at every
other offset. -/
theorem hostRegisterWrites : Obligations.HostRegisterWrites := by
  intro s o v rest hidle hhost haligned hle
  have hlegal := (regOffsetLegal_iff o).2 ⟨haligned, hle⟩
  have hidle' : busy (takeLine s rest) = false := hidle
  obtain ⟨hmem, hlines, hreads⟩ := hostWriteReg_frame (takeLine s rest) o v hidle'
  refine ⟨_, step_of_idle_write s o v rest hidle hhost hlegal, hmem, hlines, hreads, ?_, ?_, ?_, ?_⟩
  · rintro r hr rfl
    have hw := (mem_argRegs_iff r).1 hr
    rw [hostWriteReg_of_writable _ r v hidle' hw]
    simpa using reg_setReg_of_writable (takeLine s rest) r v hw
  · intro hignored q
    simp [hostWriteReg_of_ignored _ o v hidle' hignored]
  · rintro rfl hfault q
    simp [hostWriteReg_cmd _ v hidle', issue_of_faulted (takeLine s rest) v hfault]
  · rintro rfl hfault
    rw [hostWriteReg_cmd _ v hidle']
    have hissue := issue_of_not_faulted (takeLine s rest) v hfault
    refine ⟨by simp [hissue], by simp [hissue, busyStatus_eq], fun q hcmd hstatus => ?_⟩
    simp [reg_issue_ne _ v q hcmd hstatus]

/-! ### Buffer bytes (20_memory.md R87) -/

theorem hostReadByte_of_defined (s : State) (a : Nat) (x : Byte) (hidle : busy s = false)
    (h : Memory.read? s.mem a = some x) : hostReadByte s a = x := by
  simp [hostReadByte, hidle, h]

theorem hostReadByte_of_undefined (s : State) (a : Nat) (hidle : busy s = false)
    (h : Memory.read? s.mem a = none) : hostReadByte s a = Config.draw8 s.events .host a := by
  simp [hostReadByte, hidle, h]

/-- Taking the line off the host's list does not change what a buffer byte reads as. -/
@[simp] theorem hostReadByte_takeLine (s : State) (rest : List HostOp) (a : Nat) :
    hostReadByte (takeLine s rest) a = hostReadByte s a := rfl

theorem hostWriteByte_of_idle (s : State) (a : Nat) (b : Byte) (hidle : busy s = false) :
    hostWriteByte s a b = { s with mem := Memory.write s.mem a b } := by
  rw [hostWriteByte, hidle, if_neg Bool.false_ne_true]

/-- No register is held in the buffer memory. -/
theorem reg_with_mem (s : State) (m : Memory) (r : Reg) : reg { s with mem := m } r = reg s r := by
  cases r <;> rfl

/-- An idle device performs a byte read at the head of the host's list. -/
theorem step_of_idle_byte_read (s : State) (a : Nat) (rest : List HostOp) (hidle : busy s = false)
    (hhost : s.host = .lb a :: rest) (ha : a < s.bufSize.toNat) :
    step s = .next (count (answer (takeLine s rest) (.buf a (hostReadByte s a)))) := by
  have hlegal := (bufOffsetLegal_iff (takeLine s rest) a).2 ha
  rw [step_of_idle_line s _ rest hidle hhost, hostAccess, if_pos hlegal, hostReadByte_takeLine]

/-- An idle device performs a byte write at the head of the host's list. -/
theorem step_of_idle_byte_write (s : State) (a : Nat) (b : Byte) (rest : List HostOp) (hidle : busy s = false)
    (hhost : s.host = .sb a b :: rest) (ha : a < s.bufSize.toNat) :
    step s = .next (count { takeLine s rest with mem := Memory.write s.mem a b }) := by
  have hlegal := (bufOffsetLegal_iff (takeLine s rest) a).2 ha
  rw [step_of_idle_line s _ rest hidle hhost, hostAccess, if_pos hlegal,
    hostWriteByte_of_idle (takeLine s rest) a b hidle, takeLine_mem]

/-- Settles O15: a byte read answers the byte or a draw, and a byte write is one `Memory.write`. -/
theorem hostBufferAccesses : Obligations.HostBufferAccesses := by
  intro s a rest hidle ha
  refine ⟨fun hhost => ?_, fun b hhost => ?_⟩
  · exact ⟨_, hostReadByte s a, step_of_idle_byte_read s a rest hidle hhost ha, answered_count_answer s rest _,
      fun x => hostReadByte_of_defined s a x hidle, hostReadByte_of_undefined s a hidle⟩
  · refine ⟨_, step_of_idle_byte_write s a b rest hidle hhost ha, rfl, rfl, ?_, ?_, ?_⟩
    · intro r
      rw [reg_count, reg_with_mem, reg_takeLine]
    · simp [read?_write]
    · intro x hx
      simp [read?_write, hx]

/-! ### Refused accesses (20_memory.md R81, R82) -/

/-- An access guarded by its offset answers a next state or is refused for its own space. -/
theorem guarded_outcome (legal : Bool) (t : State) (own : Refusal) :
    (∃ u, (if legal = true then .next t else .refused own) = (.next u : Host.Outcome State Fault Refusal)) ∨
      (if legal = true then .next t else .refused own) = (.refused own : Host.Outcome State Fault Refusal) := by
  cases legal with
  | true => exact .inl ⟨t, rfl⟩
  | false => exact .inr rfl

/-- The accesses refused as register accesses, idle or busy. -/
theorem hostAccess_refused_register_iff (s : State) (op : HostOp) :
    hostAccess s op = .refused .registerAccess ↔
      (∃ o, ((∃ v, op = .wr o v) ∨ op = .rd o) ∧ ¬ (o % 4 = 0 ∧ o ≤ 0x3C)) ∨ op = .badWidth .register := by
  cases op with
  | wr o v => simp [hostAccess, ← regOffsetLegal_iff]
  | rd o => simp [hostAccess, ← regOffsetLegal_iff]
  | sb a b => simp [hostAccess, ite_eq_iff]
  | lb a => simp [hostAccess, ite_eq_iff]
  | rst => simp [hostAccess]
  | poll => simp [hostAccess]
  | badWidth sp => cases sp <;> simp [hostAccess, spaceRefusal]

/-- The accesses refused as buffer accesses, idle or busy. -/
theorem hostAccess_refused_buffer_iff (s : State) (op : HostOp) :
    hostAccess s op = .refused .bufferAccess ↔
      (∃ a, ((∃ b, op = .sb a b) ∨ op = .lb a) ∧ ¬ a < s.bufSize.toNat) ∨ op = .badWidth .buffer := by
  cases op with
  | wr o v => simp [hostAccess, ite_eq_iff]
  | rd o => simp [hostAccess, ite_eq_iff]
  | sb a b => simp [hostAccess, ← bufOffsetLegal_iff]
  | lb a => simp [hostAccess, ← bufOffsetLegal_iff]
  | rst => simp [hostAccess]
  | poll => simp [hostAccess]
  | badWidth sp => cases sp <;> simp [hostAccess, spaceRefusal]

/-- A host access answers a next state or is refused for its space; there is no other outcome. -/
theorem hostAccess_outcome (s : State) (op : HostOp) :
    (∃ t, hostAccess s op = .next t) ∨ hostAccess s op = .refused .registerAccess ∨
      hostAccess s op = .refused .bufferAccess := by
  cases op with
  | wr o v => exact (guarded_outcome _ _ _).imp_right .inl
  | rd o => exact (guarded_outcome _ _ _).imp_right .inl
  | sb a b => exact (guarded_outcome _ _ _).imp_right .inr
  | lb a => exact (guarded_outcome _ _ _).imp_right .inr
  | rst => exact .inl ⟨_, rfl⟩
  | poll => exact .inl ⟨_, rfl⟩
  | badWidth sp =>
    cases sp with
    | register => exact .inr (.inl rfl)
    | buffer => exact .inr (.inr rfl)

/-- Settles O16: on an idle device the step is the host's access, whose refusals are those of the two spaces. -/
theorem refusedAccesses : Obligations.RefusedAccesses := by
  intro s op rest hidle hhost
  rw [step_of_idle_line s op rest hidle hhost]
  exact ⟨hostAccess_refused_register_iff _ op, hostAccess_refused_buffer_iff _ op, hostAccess_outcome _ op⟩

end Sys2Proof.Proofs.MemoryFamily
end

section
/-! PROOFS. The command word (30_encoding.md): the legal words are the words of the ten commands, so what the decoder
does with a legal word (R124, R128) and what the assembler names (R129) are read off command by command. -/

namespace Sys2Proof.Proofs.EncodingFamily

open Sys2Proof Sys2Proof.Machine Sys2Proof.Claims Sys2Proof.Proofs.StateFamily

/-! ### The ten commands -/

/-- The per-instruction facts about word, name and well-formedness, for every command. -/
theorem encoding_statement : ∀ i : Instr, Laws.Encoding.Statement i
  | .readWord => Laws.Encoding.readWord
  | .writeWord => Laws.Encoding.writeWord
  | .transformEnc => Laws.Encoding.transformEnc
  | .transformDec => Laws.Encoding.transformDec
  | .transformEncIv => Laws.Encoding.transformEncIv
  | .transformDecIv => Laws.Encoding.transformDecIv
  | .derive => Laws.Encoding.derive
  | .rngFill => Laws.Encoding.rngFill
  | .encrypt => Laws.Encoding.encrypt
  | .decrypt => Laws.Encoding.decrypt

theorem legalCmd_encode (i : Instr) : legalCmd (encode i) = true := by
  obtain ⟨-, hlegal, -, -⟩ := encoding_statement i
  exact hlegal

theorem assemble_mnemonic (i : Instr) : assemble (mnemonic i) = some (encode i) := by
  obtain ⟨-, -, -, hname⟩ := encoding_statement i
  exact hname

theorem mem_allInstrs (i : Instr) : i ∈ allInstrs := by
  cases i <;> decide

@[simp] theorem decode_encode (i : Instr) : decode (encode i) = .ok i := by
  cases i <;> rfl

/-! ### Legal words (30_encoding.md R121 to R125) -/

/-- The legality test of the decoder, as the statements write it. -/
theorem legalCmd_iff_legal (w : Word32) : legalCmd w = true ↔ legal w := by
  simp only [legalCmd, legal, bits_eq_extractLsb, Bool.and_eq_true, Bool.or_eq_true, beq_iff_eq, decide_eq_true_eq,
    and_assoc]

/-- The bits 9:8 are IVP and DEC (30_encoding.md R121). -/
theorem bits_modifiers (w : Word32) : bits w 9 8 = bits w 8 8 + 2 * bits w 9 9 := by
  simp only [bits]
  omega

/-- A word whose reserved bits are 0 is determined by OP, DEC and IVP (30_encoding.md R121). -/
theorem eq_commandWord (w : Word32) (hhigh : bits w 31 10 = 0) (hmid : bits w 7 4 = 0) :
    w = commandWord (bits w 3 0) (bits w 8 8) (bits w 9 9) := by
  apply BitVec.eq_of_toNat_eq
  have hlt := w.isLt
  simp only [bits, commandWord, BitVec.toNat_ofNat] at *
  omega

/-- The ten combinations of OP, DEC and IVP that R122 and R123 allow are the commands. -/
theorem exists_encode_eq_commandWord (op dec ivp : Nat) (hpos : 1 ≤ op) (hle : op ≤ 7) (hdec : dec < 2) (hivp : ivp < 2)
    (hmod : op = 3 ∨ dec + 2 * ivp = 0) : ∃ i, encode i = commandWord op dec ivp := by
  by_cases htransform : op = 3
  · subst htransform
    interval_cases dec <;> interval_cases ivp
    · exact ⟨.transformEnc, rfl⟩
    · exact ⟨.transformEncIv, rfl⟩
    · exact ⟨.transformDec, rfl⟩
    · exact ⟨.transformDecIv, rfl⟩
  · obtain ⟨rfl, rfl⟩ : dec = 0 ∧ ivp = 0 := by omega
    interval_cases op
    · exact ⟨.readWord, rfl⟩
    · exact ⟨.writeWord, rfl⟩
    · exact absurd rfl htransform
    · exact ⟨.derive, rfl⟩
    · exact ⟨.rngFill, rfl⟩
    · exact ⟨.encrypt, rfl⟩
    · exact ⟨.decrypt, rfl⟩

/-- The legal words are the words of the ten commands. -/
theorem legalCmd_iff_exists_encode (w : Word32) : legalCmd w = true ↔ ∃ i, encode i = w := by
  constructor
  · intro h
    simp only [legalCmd, Bool.and_eq_true, Bool.or_eq_true, beq_iff_eq, decide_eq_true_eq, bits_modifiers] at h
    obtain ⟨⟨⟨hhigh, hmid⟩, hpos, hle⟩, hmod⟩ := h
    rw [eq_commandWord w hhigh hmid]
    exact exists_encode_eq_commandWord _ _ _ hpos hle (Nat.mod_lt _ (by decide)) (Nat.mod_lt _ (by decide)) hmod
  · rintro ⟨i, rfl⟩
    exact legalCmd_encode i

theorem legal_iff_exists_encode (w : Word32) : legal w ↔ ∃ i, encode i = w := by
  rw [← legalCmd_iff_legal, legalCmd_iff_exists_encode]

theorem mem_legalWords_iff (w : Word32) : w ∈ legalWords ↔ ∃ i, encode i = w := by
  have htable : legalWords = allInstrs.map encode := by decide
  simp [htable, mem_allInstrs]

/-! ### Decoding (30_encoding.md R128) -/

theorem decode_of_illegal (w : Word32) (h : ¬ legal w) : decode w = .error (illegalReason w) := by
  rw [decode, if_neg (mt (legalCmd_iff_legal w).1 h)]

/-- A word decodes to a command exactly when it is that command's word: no bit of it is dropped. -/
theorem decode_eq_ok_iff (w : Word32) (i : Instr) : decode w = .ok i ↔ encode i = w := by
  by_cases h : legal w
  · obtain ⟨j, rfl⟩ := (legal_iff_exists_encode w).1 h
    rw [decode_encode]
    constructor
    · rintro ⟨⟩
      rfl
    · intro hij
      rw [← decode_encode j, ← hij, decode_encode]
  · have hne : ∀ j, encode j ≠ w := fun j hj => h ((legal_iff_exists_encode w).2 ⟨j, hj⟩)
    simp [decode_of_illegal w h, hne]

/-- Settles O3: an illegal word is rejected, and a legal word is the word of one of the ten commands. -/
theorem decodeByOpcode : Obligations.DecodeByOpcode := by
  intro w
  refine ⟨fun h => ⟨_, decode_of_illegal w h⟩, fun h => ?_⟩
  obtain ⟨i, rfl⟩ := (legal_iff_exists_encode w).1 h
  rw [decode_encode]
  cases i <;> rfl

/-! ### An illegal word on the engine's turn (30_encoding.md R124) -/

/-- On the engine's turn a word that does not decode ends as Error(IllegalCommand), whatever else the state holds. -/
theorem step_of_decode_error (s : State) (e : IllegalWord) (ht : engineTurn s = true)
    (hd : decode (commandPending s) = .error e) : step s = .next (abort s (.error .illegalCommand)) := by
  simp [step, ht, hd, illegalCommand]

theorem abortStatus_illegalCommand : abortStatus (.error .illegalCommand) = 0x42#32 := by decide

/-- Settles O2: legal, decodable and listed words are all the words of the ten commands, and an illegal word ends the
engine's step before any check. -/
theorem illegalWordsEndAsIllegalCommand : Obligations.IllegalWordsEndAsIllegalCommand := by
  intro w
  refine ⟨⟨?_, ?_⟩, fun s hcmd ht hillegal => ?_⟩
  · simp only [decode_eq_ok_iff, legal_iff_exists_encode]
  · rw [legal_iff_exists_encode, mem_legalWords_iff]
  · have hd : decode (commandPending s) = .error (illegalReason w) := by
      rw [commandPending_of_some s w hcmd, decode_of_illegal w hillegal]
    rw [step_of_decode_error s _ ht hd, abort_eq_ended, abortStatus_illegalCommand]

/-! ### Mnemonics (30_encoding.md R129) -/

/-- A string assembles to a word exactly when one command has that name and that word. -/
theorem assemble_eq_some_iff (m : String) (w : Word32) :
    assemble m = some w ↔ ∃ i, mnemonic i = m ∧ encode i = w := by
  constructor
  · intro h
    obtain ⟨i, hfound, hword⟩ := Option.map_eq_some_iff.1 h
    have hname := List.find?_some hfound
    exact ⟨i, beq_iff_eq.1 hname, hword⟩
  · rintro ⟨i, rfl, rfl⟩
    exact assemble_mnemonic i

/-- Settles O5: the ten rows are the names and words of the ten commands, in the order of the table. -/
theorem mnemonicsNameTheWords : Obligations.MnemonicsNameTheWords := by
  intro m w
  rw [assemble_eq_some_iff]
  change _ ↔ (m, w) ∈ allInstrs.map fun i => (mnemonic i, encode i)
  simp [mem_allInstrs]

end Sys2Proof.Proofs.EncodingFamily
end

section
/-! PROOFS. The word codec commands (40_word_codec.md R152, R153). Both check CONFIG and then the range of the one word
they name, so one pair of lemmas about those two checks says how either of them ends. -/

namespace Sys2Proof.Proofs.WordCodecFamily

open Sys2Proof Sys2Proof.Machine Sys2Proof.Claims Sys2Proof.Proofs.StateFamily

/-! ### Commands that check CONFIG and the range of one region (60_exceptions.md R247) -/

/-- A single input region is checked as a destination region is: by its range. -/
theorem inputCheck_singleton (s : State) (r : Region) : inputCheck s [r] = destCheck s r := by
  simp [inputCheck, destCheck]

theorem runCommand_config_range_of_pass (s effect : State) (c : Word32) (r : Region) (hc : s.config = some c)
    (hvalid : configValid c = true) (hin : inside s (r.ptr, r.len)) :
    runCommand s [configCheck s, destCheck s r] effect = .next (succeed effect) := by
  have hrange : inRange s r = true := (inRange_iff s r).2 hin
  apply runCommand_of_checks
  simp [configCheck, destCheck, configOf_of_some s c hc, hvalid, hrange]

/-- An invalid CONFIG is reported whatever the range; a region out of range only under a valid CONFIG. -/
theorem runCommand_config_range_of_fail (s effect : State) (c : Word32) (r : Region) (hc : s.config = some c)
    (hfail : ¬ (configValid c = true ∧ inside s (r.ptr, r.len))) :
    runCommand s [configCheck s, destCheck s r] effect =
      .next (ended s (if configValid c = false then 0x22#32 else 0x106#32)) := by
  rw [configCheck, configOf_of_some s c hc]
  cases hvalid : configValid c with
  | false => rfl
  | true =>
    have hrange : inRange s r = false :=
      Bool.eq_false_iff.2 fun h => hfail ⟨hvalid, (inRange_iff s r).1 h⟩
    rw [destCheck, hrange]
    rfl

/-! ### READ_WORD (40_word_codec.md R152) -/

/-- READ_WORD over the values of its two argument registers. -/
theorem exec_readWord_eq (s : State) (c a : Word32) (hc : s.config = some c) (ha : s.srcPtr = some a) :
    exec .readWord s = runCommand s [configCheck s, destCheck s ⟨a.toNat, wordSize c⟩]
      (loadResult s (le (memRead s .src a.toNat (wordSize c))) (wordSize c)) := by
  have hregion : readWordRegion s = ⟨a.toNat, wordSize c⟩ := by
    rw [readWordRegion, regNat_of_some s .srcPtr a ha, configOf_of_some s c hc]
  change execReadWord s = _
  rw [execReadWord, inputCheck_singleton, hregion, configOf_of_some s c hc, readRegion]

/-- Settles O36: the loaded word when both checks pass, and the completion of the first that fails. -/
theorem readWordResult : Obligations.ReadWordResult := by
  intro s c a hc ha
  rw [exec_readWord_eq s c a hc ha]
  exact ⟨runCommand_config_range_of_pass s _ c ⟨a.toNat, wordSize c⟩ hc,
    runCommand_config_range_of_fail s _ c ⟨a.toNat, wordSize c⟩ hc⟩

/-! ### WRITE_WORD (40_word_codec.md R153) -/

/-- WRITE_WORD over the values of its three argument registers. -/
theorem exec_writeWord_eq (s : State) (c a v : Word32) (hc : s.config = some c) (ha : s.dstPtr = some a)
    (hv : s.data = some v) :
    exec .writeWord s = runCommand s [configCheck s, destCheck s ⟨a.toNat, wordSize c⟩]
      (storeResult s ⟨a.toNat, wordSize c⟩ (codecWrite (wordSize c) v.toNat)) := by
  have hregion : writeWordRegion s = ⟨a.toNat, wordSize c⟩ := by
    rw [writeWordRegion, dstRegion, regNat_of_some s .dstPtr a ha, configOf_of_some s c hc]
  change execWriteWord s = _
  rw [execWriteWord, hregion, configOf_of_some s c hc, regNat_of_some s .data v hv]

/-- A success that stored a region, as the statements write it. -/
theorem succeed_storeResult_eq_stored (s : State) (r : Region) (bytes : List Byte) :
    succeed (storeResult s r bytes) = stored s r.ptr bytes r.len := rfl

/-- Settles O37: the stored word when both checks pass, and the completion of the first that fails. -/
theorem writeWordResult : Obligations.WriteWordResult := by
  intro s c a v hc ha hv
  rw [exec_writeWord_eq s c a v hc ha hv]
  refine ⟨fun hvalid hin => ?_, runCommand_config_range_of_fail s _ c ⟨a.toNat, wordSize c⟩ hc⟩
  rw [runCommand_config_range_of_pass s _ c _ hc hvalid hin, succeed_storeResult_eq_stored, codecWrite, radix]

end Sys2Proof.Proofs.WordCodecFamily
end

section
/-! PROOFS. DERIVE (41_iv_deriver.md R172). Its checks are CONFIG, the key length and then the regions, in an order that
is stated once for every command that has this list of checks. -/

namespace Sys2Proof.Proofs.DeriverFamily

open Sys2Proof Sys2Proof.Machine Sys2Proof.Claims Sys2Proof.Proofs.StateFamily Sys2Proof.Proofs.WordCodecFamily

/-! ### One check at a time (60_exceptions.md R247) -/

/-- The next check passes and the later ones decide, or it ends the command with its own completion. -/
theorem runCommand_cons (s effect : State) (check : Check) (later : List Check) :
    runCommand s (check :: later) effect =
      if check.1 = true then runCommand s later effect else .next (ended s (abortStatus check.2)) := by
  obtain ⟨ok, a⟩ := check
  cases ok <;> rfl

/-- A region as the statements write it, a pair of start and length. -/
def span (r : Region) : Nat × Nat := (r.ptr, r.len)

theorem configCheck_passes_iff (s : State) (c : Word32) (hc : s.config = some c) :
    (configCheck s).1 = true ↔ configValid c = true := by
  rw [configCheck, configOf_of_some s c hc]

theorem keyCheck_passes_iff (s : State) (c kl : Word32) (hc : s.config = some c) (hkl : s.keyLen = some kl) :
    (keyCheck s).1 = true ↔ goodKey (wordSize c) kl.toNat := by
  rw [keyCheck, configOf_of_some s c hc, regNat_of_some s .keyLen kl hkl, keyValid_iff]

theorem inputCheck_passes_iff (s : State) (inputs : List Region) :
    (inputCheck s inputs).1 = true ↔ ∀ r ∈ inputs.map span, inside s r := by
  simp only [inputCheck, List.all_eq_true, inRange_iff, List.forall_mem_map, span]

theorem destCheck_passes_iff (s : State) (dst : Region) : (destCheck s dst).1 = true ↔ inside s (span dst) :=
  inRange_iff s dst

theorem overlapCheck_passes_iff (dst : Region) (inputs : List Region) :
    (overlapCheck dst inputs).1 = true ↔ ∀ r ∈ inputs.map span, ¬ meets (span dst) r := by
  simp only [overlapCheck, List.all_eq_true, Bool.not_eq_true', ← Bool.not_eq_true, overlap_iff, List.forall_mem_map,
    span]

/-! ### Commands that check CONFIG, the key and their regions -/

/-- The checks of a command that reads a key and stores a region: CONFIG, the key length, the input regions, the
destination, and their overlap (60_exceptions.md R247, ranks 2, 3, 5, 7 and 8). -/
def keyedChecks (s : State) (inputs : List Region) (dst : Region) : List Check :=
  [configCheck s, keyCheck s, inputCheck s inputs, destCheck s dst, overlapCheck dst inputs]

/-- What `keyedChecks` requires, under CONFIG `c` and the key length `kl`. -/
abbrev KeyedChecksHold (s : State) (c kl : Word32) (inputs : List (Nat × Nat)) (dst : Nat × Nat) : Prop :=
  configValid c = true ∧ goodKey (wordSize c) kl.toNat ∧ (∀ r ∈ inputs, inside s r) ∧ inside s dst ∧
    ∀ r ∈ inputs, ¬ meets dst r

section KeyedChecks

variable {s : State} {c kl : Word32} (effect : State) (inputs : List Region) (dst : Region)

theorem runCommand_keyedChecks_of_pass (hc : s.config = some c) (hkl : s.keyLen = some kl)
    (h : KeyedChecksHold s c kl (inputs.map span) (span dst)) :
    runCommand s (keyedChecks s inputs dst) effect = .next (succeed effect) := by
  obtain ⟨hconfig, hkey, hinputs, hdst, hdisjoint⟩ := h
  apply runCommand_of_checks
  simp only [keyedChecks, List.forall_mem_cons, configCheck_passes_iff s c hc, keyCheck_passes_iff s c kl hc hkl,
    inputCheck_passes_iff, destCheck_passes_iff, overlapCheck_passes_iff]
  exact ⟨hconfig, hkey, hinputs, hdst, hdisjoint, by simp⟩

/-- The completion is that of the first requirement missed; the last one is missed when all before it are met. -/
theorem runCommand_keyedChecks_of_fail (hc : s.config = some c) (hkl : s.keyLen = some kl)
    (h : ¬ KeyedChecksHold s c kl (inputs.map span) (span dst)) :
    runCommand s (keyedChecks s inputs dst) effect = .next (ended s (
      if configValid c = false then 0x22#32
      else if ¬ goodKey (wordSize c) kl.toNat then 0x12#32
      else if ∃ r ∈ inputs.map span, ¬ inside s r then 0x106#32
      else if ¬ inside s (span dst) then 0x106#32
      else 0x62#32)) := by
  simp only [keyedChecks, runCommand_cons, configCheck_passes_iff s c hc, keyCheck_passes_iff s c kl hc hkl,
    inputCheck_passes_iff, destCheck_passes_iff, overlapCheck_passes_iff]
  by_cases hconfig : configValid c = true
  case neg => rw [if_neg hconfig, if_pos (Bool.eq_false_iff.2 hconfig)]; rfl
  rw [if_pos hconfig, if_neg (Bool.eq_false_iff.not_left.2 hconfig)]
  by_cases hkey : goodKey (wordSize c) kl.toNat
  case neg => rw [if_neg hkey, if_pos hkey]; rfl
  rw [if_pos hkey, if_neg (not_not_intro hkey)]
  by_cases hinputs : ∀ r ∈ inputs.map span, inside s r
  case neg => rw [if_neg hinputs, if_pos (by simpa only [not_forall, exists_prop] using hinputs)]; rfl
  have hnone : ¬ ∃ r ∈ inputs.map span, ¬ inside s r := fun ⟨r, hr, hout⟩ => hout (hinputs r hr)
  rw [if_pos hinputs, if_neg hnone]
  by_cases hdst : inside s (span dst)
  case neg => rw [if_neg hdst, if_pos hdst]; rfl
  rw [if_pos hdst, if_neg (not_not_intro hdst), if_neg fun hdisjoint => h ⟨hconfig, hkey, hinputs, hdst, hdisjoint⟩]
  rfl

end KeyedChecks

/-! ### DERIVE (41_iv_deriver.md R172) -/

/-- DERIVE over the values of its five registers: the key and the IV are its inputs, and the destination is as long as
the key. -/
theorem exec_derive_eq (s : State) (c kp kl vp dp : Word32) (hc : s.config = some c) (hkp : s.keyPtr = some kp)
    (hkl : s.keyLen = some kl) (hvp : s.ivPtr = some vp) (hdp : s.dstPtr = some dp) :
    exec .derive s =
      runCommand s (keyedChecks s [⟨kp.toNat, kl.toNat⟩, ⟨vp.toNat, ivLength c⟩] ⟨dp.toNat, kl.toNat⟩)
        (storeResult s ⟨dp.toNat, kl.toNat⟩
          (deriveKey (wordSize c) (memRead s .key kp.toNat kl.toNat) (memRead s .iv vp.toNat (ivLength c)))) := by
  have hkey : keyRegion s = ⟨kp.toNat, kl.toNat⟩ := by
    rw [keyRegion, regNat_of_some s .keyPtr kp hkp, regNat_of_some s .keyLen kl hkl]
  have hiv : ivRegion s = ⟨vp.toNat, ivLength c⟩ := by
    rw [ivRegion, regNat_of_some s .ivPtr vp hvp, configOf_of_some s c hc]
  have hdst : deriveDst s = ⟨dp.toNat, kl.toNat⟩ := by
    rw [deriveDst, dstRegion, regNat_of_some s .dstPtr dp hdp, regNat_of_some s .keyLen kl hkl]
  change execDerive s = _
  rw [execDerive, deriveOutput, hkey, hiv, hdst, configOf_of_some s c hc, readRegion, readRegion, keyedChecks]

/-- Settles O39: the derived key is stored when every check of `keyedChecks` passes, and the first that fails completes
the command. -/
theorem deriveResult : Obligations.DeriveResult := by
  intro s c kp kl vp dp hc hkp hkl hvp hdp
  rw [exec_derive_eq s c kp kl vp dp hc hkp hkl hvp hdp]
  refine ⟨fun hpass => ?_, fun hfail => runCommand_keyedChecks_of_fail _ _ _ hc hkl ?_⟩
  · refine (runCommand_keyedChecks_of_pass _ _ _ hc hkl ?_).trans ?_
    · exact hpass
    · rw [succeed_storeResult_eq_stored, deriveKey]
  · exact hfail

end Sys2Proof.Proofs.DeriverFamily
end

section
/-! PROOFS. The transform word by word (42_modadd_transform.md R182 to R185) and the four forms of TRANSFORM (R190,
R191). Between the key and the regions TRANSFORM checks that its input is whole words; when it is, the checks left are
those of `keyedChecks`. -/

namespace Sys2Proof.Proofs.TransformFamily

open Sys2Proof Sys2Proof.Machine Sys2Proof.Claims Sys2Proof.Proofs.DeriverFamily

/-! ### One word of the transform (42_modadd_transform.md R184, R185) -/

theorem transformWord_enc (ws x k v : Nat) : transformWord ws false x k v = (x + k + v) % 2 ^ (8 * ws) := rfl

/-- The remainder of the difference is not negative, so as a natural number it keeps its value. -/
theorem transformWord_dec (ws x k v : Nat) :
    (transformWord ws true x k v : Int) = ((x : Int) - k - v) % 2 ^ (8 * ws) := by
  have hradix : (radix ws : Int) = 2 ^ (8 * ws) := by simp [radix]
  have hnonneg : 0 ≤ ((x : Int) - k - v) % (2 ^ (8 * ws) : Int) := Int.emod_nonneg _ (by positivity)
  rw [transformWord, if_pos rfl, hradix, Int.toNat_of_nonneg hnonneg]

/-- Settles O47: output word `i` is `transformWord` of the input word, the key word and the IV word at `i`. -/
theorem transformWords : Obligations.TransformWords := by
  intro ws X K V dec _ hX _ _
  refine ⟨(length_transform ..).trans (div_mul_of_mod _ _ hX), fun i hi => ?_⟩
  intro x k v y
  have hv : ivWord ws V i = v := by cases V <;> rfl
  have hy : y = transformWord ws dec x k v := (codecRead_transform ws X K V dec i hi).trans (by rw [hv]; rfl)
  rw [hy]
  constructor
  · rintro rfl
    exact transformWord_enc ws x k v
  · rintro rfl
    exact transformWord_dec ws x k v

/-! ### The checks of TRANSFORM (42_modadd_transform.md R190, R191) -/

/-- The checks of TRANSFORM: those of `keyedChecks`, with the length of the input at rank 4 (60_exceptions.md R247). -/
def transformChecks (s : State) (inputs : List Region) (dst : Region) : List Check :=
  [configCheck s, keyCheck s, lengthCheck s, inputCheck s inputs, destCheck s dst, overlapCheck dst inputs]

theorem lengthCheck_passes_iff (s : State) (c sl : Word32) (hc : s.config = some c) (hsl : s.srcLen = some sl) :
    (lengthCheck s).1 = true ↔ sl.toNat % wordSize c = 0 := by
  rw [lengthCheck, configOf_of_some s c hc, regNat_of_some s .srcLen sl hsl, beq_iff_eq]

section TransformChecks

variable {s : State} {c sl kl : Word32} (effect : State) (inputs : List Region) (dst : Region)

/-- On an input of whole words the length check changes nothing. -/
theorem runCommand_transformChecks_of_whole (hc : s.config = some c) (hsl : s.srcLen = some sl)
    (hwhole : sl.toNat % wordSize c = 0) :
    runCommand s (transformChecks s inputs dst) effect = runCommand s (keyedChecks s inputs dst) effect := by
  have hlength : (lengthCheck s).1 = true := (lengthCheck_passes_iff s c sl hc hsl).2 hwhole
  simp only [transformChecks, keyedChecks, runCommand_cons, if_pos hlength]

theorem runCommand_transformChecks_of_pass (hc : s.config = some c) (hsl : s.srcLen = some sl)
    (hkl : s.keyLen = some kl) (hwhole : sl.toNat % wordSize c = 0)
    (h : KeyedChecksHold s c kl (inputs.map span) (span dst)) :
    runCommand s (transformChecks s inputs dst) effect = .next (succeed effect) := by
  rw [runCommand_transformChecks_of_whole effect inputs dst hc hsl hwhole]
  exact runCommand_keyedChecks_of_pass effect inputs dst hc hkl h

/-- An input that is not whole words ends the command before any region is looked at; otherwise one of `keyedChecks`
is missed. -/
theorem runCommand_transformChecks_of_fail (hc : s.config = some c) (hsl : s.srcLen = some sl)
    (hkl : s.keyLen = some kl)
    (h : ¬ (sl.toNat % wordSize c = 0 ∧ KeyedChecksHold s c kl (inputs.map span) (span dst))) :
    runCommand s (transformChecks s inputs dst) effect = .next (ended s (
      if configValid c = false then 0x22#32
      else if ¬ goodKey (wordSize c) kl.toNat then 0x12#32
      else if sl.toNat % wordSize c ≠ 0 then 0x52#32
      else if ∃ r ∈ inputs.map span, ¬ inside s r then 0x106#32
      else if ¬ inside s (span dst) then 0x106#32
      else 0x62#32)) := by
  by_cases hwhole : sl.toNat % wordSize c = 0
  case pos =>
    rw [if_neg (not_not_intro hwhole), runCommand_transformChecks_of_whole effect inputs dst hc hsl hwhole]
    exact runCommand_keyedChecks_of_fail effect inputs dst hc hkl fun hkeyed => h ⟨hwhole, hkeyed⟩
  rw [if_pos hwhole]
  simp only [transformChecks, runCommand_cons, configCheck_passes_iff s c hc, keyCheck_passes_iff s c kl hc hkl,
    lengthCheck_passes_iff s c sl hc hsl, if_neg hwhole]
  by_cases hconfig : configValid c = true
  case neg => rw [if_neg hconfig, if_pos (Bool.eq_false_iff.2 hconfig)]; rfl
  rw [if_pos hconfig, if_neg (Bool.eq_false_iff.not_left.2 hconfig)]
  by_cases hkey : goodKey (wordSize c) kl.toNat
  case neg => rw [if_neg hkey, if_pos hkey]; rfl
  rw [if_pos hkey, if_neg (not_not_intro hkey)]
  rfl

end TransformChecks

/-! ### The operands of TRANSFORM (42_modadd_transform.md R190) -/

/-- The four forms of TRANSFORM are its four combinations of DEC and IVP (30_encoding.md R123). -/
theorem exec_eq_transformCommand {i : Instr} {dec ivp : Bool}
    (h : (i, dec, ivp) ∈ [(Instr.transformEnc, false, false), (.transformDec, true, false),
      (.transformEncIv, false, true), (.transformDecIv, true, true)]) (s : State) :
    exec i s = transformCommand s dec ivp := by
  simp only [List.mem_cons, Prod.mk.injEq, List.not_mem_nil, or_false] at h
  obtain ⟨rfl, rfl, rfl⟩ | ⟨rfl, rfl, rfl⟩ | ⟨rfl, rfl, rfl⟩ | ⟨rfl, rfl, rfl⟩ := h <;> rfl

section TransformOperands

variable {s : State} {c sp sl kp kl vp dp : Word32} {ivp : Bool}

theorem srcRegion_of_some (hsp : s.srcPtr = some sp) (hsl : s.srcLen = some sl) :
    srcRegion s = ⟨sp.toNat, sl.toNat⟩ := by
  rw [srcRegion, regNat_of_some s .srcPtr sp hsp, regNat_of_some s .srcLen sl hsl]

theorem keyRegion_of_some (hkp : s.keyPtr = some kp) (hkl : s.keyLen = some kl) :
    keyRegion s = ⟨kp.toNat, kl.toNat⟩ := by
  rw [keyRegion, regNat_of_some s .keyPtr kp hkp, regNat_of_some s .keyLen kl hkl]

theorem ivRegion_of_some (hc : s.config = some c) (hvp : s.ivPtr = some vp) :
    ivRegion s = ⟨vp.toNat, ivLength c⟩ := by
  rw [ivRegion, regNat_of_some s .ivPtr vp hvp, configOf_of_some s c hc]

theorem transformDst_of_some (hsl : s.srcLen = some sl) (hdp : s.dstPtr = some dp) :
    transformDst s = ⟨dp.toNat, sl.toNat⟩ := by
  rw [transformDst, dstRegion, regNat_of_some s .dstPtr dp hdp, regNat_of_some s .srcLen sl hsl]

/-- The input regions of TRANSFORM over the values of its registers; IV_PTR counts only when IVP = 1. -/
theorem map_span_transformInputs (hc : s.config = some c) (hsp : s.srcPtr = some sp) (hsl : s.srcLen = some sl)
    (hkp : s.keyPtr = some kp) (hkl : s.keyLen = some kl) (hvp : ivp = true → s.ivPtr = some vp) :
    (transformInputs s ivp).map span =
      [(sp.toNat, sl.toNat), (kp.toNat, kl.toNat)] ++ (if ivp then [(vp.toNat, ivLength c)] else []) := by
  rw [transformInputs, srcRegion_of_some hsp hsl, keyRegion_of_some hkp hkl]
  cases ivp with
  | false => rfl
  | true => rw [ivRegion_of_some hc (hvp rfl)]; rfl

theorem transformIv_of_some (hc : s.config = some c) (hvp : ivp = true → s.ivPtr = some vp) :
    transformIv s ivp = if ivp then some (memRead s .iv vp.toNat (ivLength c)) else none := by
  cases ivp with
  | false => rfl
  | true => rw [transformIv, ivRegion_of_some hc (hvp rfl), readRegion]

theorem transformOutput_of_some (dec : Bool) (hc : s.config = some c) (hsp : s.srcPtr = some sp)
    (hsl : s.srcLen = some sl) (hkp : s.keyPtr = some kp) (hkl : s.keyLen = some kl)
    (hvp : ivp = true → s.ivPtr = some vp) :
    transformOutput s dec ivp =
      transform (wordSize c) (memRead s .src sp.toNat sl.toNat) (memRead s .key kp.toNat kl.toNat)
        (if ivp then some (memRead s .iv vp.toNat (ivLength c)) else none) dec := by
  rw [transformOutput, configOf_of_some s c hc, srcRegion_of_some hsp hsl, keyRegion_of_some hkp hkl,
    transformIv_of_some hc hvp, readRegion, readRegion]

end TransformOperands

/-- Settles O38: the transform is stored when every check of `transformChecks` passes, and the first that fails
completes the command. -/
theorem transformResult : Obligations.TransformResult := by
  intro i dec ivp hform s c sp sl kp kl vp dp hc hsp hsl hkp hkl hvp hdp ws inputs dst V Y checks
  have hinputs : (transformInputs s ivp).map span = inputs := map_span_transformInputs hc hsp hsl hkp hkl hvp
  have hexec : exec i s = runCommand s (transformChecks s (transformInputs s ivp) ⟨dp.toNat, sl.toNat⟩)
      (storeResult s ⟨dp.toNat, sl.toNat⟩ Y) := by
    rw [exec_eq_transformCommand hform, transformCommand, transformDst_of_some hsl hdp,
      transformOutput_of_some dec hc hsp hsl hkp hkl hvp, transformChecks]
  rw [hexec, ← hinputs]
  refine ⟨fun hpass => ?_, fun hfail => ?_⟩
  · obtain ⟨hconfig, hkey, hwhole, hregions⟩ := hpass
    refine runCommand_transformChecks_of_pass _ _ _ hc hsl hkl hwhole ⟨hconfig, hkey, ?_⟩
    rw [hinputs]
    exact hregions
  · refine runCommand_transformChecks_of_fail _ _ _ hc hsl hkl fun hall => hfail ?_
    obtain ⟨hwhole, hconfig, hkey, hregions⟩ := hall
    rw [hinputs] at hregions
    exact ⟨hconfig, hkey, hwhole, hregions⟩

end Sys2Proof.Proofs.TransformFamily
end

section
/-! PROOFS. Padding, the frame, and the three commands of 43_framing.md (R201 to R208). RNG_FILL checks what WRITE_WORD
checks, ENCRYPT what DERIVE checks; DECRYPT has one check more, which a frame that is not malformed passes. -/

namespace Sys2Proof.Proofs.FramingFamily

open Sys2Proof Sys2Proof.Machine Sys2Proof.Claims Sys2Proof.Proofs.StateFamily Sys2Proof.Proofs.WordCodecFamily
  Sys2Proof.Proofs.DeriverFamily Sys2Proof.Proofs.TransformFamily

/-! ### Padding and the frame (43_framing.md R201 to R203) -/

theorem padCount_lt (ws n : Nat) (hws : 0 < ws) : padCount ws n < ws := Nat.mod_lt _ hws

/-- The padded plaintext is the plaintext rounded up to whole words (00_scope.md R15). -/
theorem length_pad_eq_roundup (ws : Nat) (P : List Byte) : (pad ws P).length = roundup P.length ws := length_pad ws P

theorem length_pad_mod (ws : Nat) (P : List Byte) (hws : 0 < ws) : (pad ws P).length % ws = 0 := by
  rw [length_pad, padCount_completes ws P.length hws]

theorem take_pad (ws : Nat) (P : List Byte) : (pad ws P).take P.length = P := List.take_left

theorem drop_pad (ws : Nat) (P : List Byte) :
    (pad ws P).drop P.length = List.replicate (padCount ws P.length) fillerByte := List.drop_left

theorem frame_zero (pc : Nat) (V B : List Byte) : frame 0 pc V B = V ++ B := rfl

theorem frame_one (pc : Nat) (V B : List Byte) : frame 1 pc V B = BitVec.ofNat 8 pc :: (V ++ B) := rfl

theorem length_frame (m pc : Nat) (V B : List Byte) (hm : m ≤ 1) :
    (frame m pc V B).length = m + V.length + B.length := by
  obtain rfl | rfl : m = 0 ∨ m = 1 := by omega
  · rw [frame_zero, List.length_append, Nat.zero_add]
  · rw [frame_one, List.length_cons, List.length_append, Nat.add_comm, Nat.add_assoc]

/-- What follows the marker, if there is one, is the IV and then the body. -/
theorem drop_frame (m pc : Nat) (V B : List Byte) (hm : m ≤ 1) : (frame m pc V B).drop m = V ++ B := by
  obtain rfl | rfl : m = 0 ∨ m = 1 := by omega
  · rfl
  · rfl

theorem slice_frame_iv (m pc : Nat) (V B : List Byte) (hm : m ≤ 1) :
    slice (frame m pc V B) m (m + V.length) = V := by
  rw [slice, drop_frame m pc V B hm, Nat.add_sub_cancel_left, List.take_left]

/-- A slice up to the end of the sequence is what is left of it. -/
theorem slice_length (S : List Byte) (a : Nat) : slice S a S.length = S.drop a :=
  List.take_of_length_le (by simp)

theorem slice_frame_body (m pc : Nat) (V B : List Byte) (hm : m ≤ 1) :
    slice (frame m pc V B) (m + V.length) (frame m pc V B).length = B := by
  rw [slice_length, ← List.drop_drop, drop_frame m pc V B hm, List.drop_left]

/-- A marker below 256 is read back from the first byte of the frame. -/
theorem head_frame_one (pc : Nat) (V B : List Byte) (hpc : pc < 256) :
    ((frame 1 pc V B).headD 0#8).toNat = pc := by
  rw [frame_one, List.headD_cons, BitVec.toNat_ofNat]
  exact Nat.mod_eq_of_lt hpc

/-- Settles O50: the lengths and parts of the padded plaintext and of the frame, for the word sizes 1, 2 and 4. -/
theorem paddingAndFrame : Obligations.PaddingAndFrame := by
  intro ws P V B m pc hws hm hpc
  have hsize : 0 < ws ∧ ws ≤ 4 := by
    simp only [List.mem_cons, List.not_mem_nil, or_false] at hws
    omega
  have hwhole := length_pad_mod ws P hsize.1
  refine ⟨⟨rfl, padCount_lt ws _ hsize.1⟩, ⟨length_pad_eq_roundup ws P, hwhole⟩, fun K U => ?_, take_pad ws P,
    fun b hb => ?_, length_frame m pc V B hm, ?_, slice_frame_iv m pc V B hm, slice_frame_body m pc V B hm⟩
  · rw [length_transform, div_mul_of_mod _ _ hwhole, length_pad_eq_roundup]
  · rw [drop_pad] at hb
    exact List.eq_of_mem_replicate hb
  · rintro rfl
    exact head_frame_one pc V B (by omega)

/-! ### RNG_FILL (43_framing.md R205) -/

/-- RNG_FILL over the values of its three registers. -/
theorem exec_rngFill_eq (s : State) (c n dp : Word32) (hc : s.config = some c) (hn : s.srcLen = some n)
    (hdp : s.dstPtr = some dp) :
    exec .rngFill s = runCommand s [configCheck s, destCheck s ⟨dp.toNat, roundup n.toNat (wordSize c)⟩]
      (storeResult s ⟨dp.toNat, roundup n.toNat (wordSize c)⟩ (randomBytes s (roundup n.toNat (wordSize c)))) := by
  have hregion : rngDst s = ⟨dp.toNat, roundup n.toNat (wordSize c)⟩ := by
    rw [rngDst, dstRegion, regNat_of_some s .dstPtr dp hdp, regNat_of_some s .srcLen n hn, configOf_of_some s c hc]
  change execRngFill s = _
  rw [execRngFill, hregion]

/-- Settles O40: the draws are stored when both checks pass, and the first that fails completes the command. -/
theorem rngFillResult : Obligations.RngFillResult := by
  intro s c n0 dp hc hn hdp n checks
  rw [exec_rngFill_eq s c n0 dp hc hn hdp]
  refine ⟨fun ⟨hvalid, hin⟩ => ?_, runCommand_config_range_of_fail s _ c ⟨dp.toNat, n⟩ hc⟩
  exact runCommand_config_range_of_pass s _ c ⟨dp.toNat, n⟩ hc hvalid hin

/-! ### ENCRYPT (43_framing.md R206) -/

theorem ivInjected_eq_getLsbD (c : Word32) : ivInjected c = c.getLsbD 9 := by
  rw [ivInjected, Bool.eq_iff_iff, beq_iff_eq, bits_one_eq_one_iff]

section EncryptOperands

variable {s : State} {c sp sl kp kl vp dp : Word32}

/-- ENCRYPT has the inputs of TRANSFORM, with the IV among them when CONFIG.IVSRC = 1. -/
theorem encryptInputs_eq_transformInputs (hc : s.config = some c) :
    encryptInputs s = transformInputs s (c.getLsbD 9) := by
  rw [encryptInputs, configOf_of_some s c hc, ivInjected_eq_getLsbD, transformInputs]

theorem encryptIv_of_some (hc : s.config = some c) (hvp : c.getLsbD 9 = true → s.ivPtr = some vp) :
    encryptIv s = if c.getLsbD 9 then memRead s .iv vp.toNat (ivLength c) else randomBytes s (ivLength c) := by
  rw [encryptIv, configOf_of_some s c hc, ivInjected_eq_getLsbD]
  cases hsource : c.getLsbD 9 with
  | false => rfl
  | true => rw [ivRegion_of_some hc (hvp hsource), readRegion]

theorem encryptDst_of_some (hc : s.config = some c) (hsl : s.srcLen = some sl) (hdp : s.dstPtr = some dp) :
    encryptDst s =
      ⟨dp.toNat, markerLen c + ivLength c + sl.toNat + padCount (wordSize c) sl.toNat⟩ := by
  rw [encryptDst, dstRegion, configOf_of_some s c hc, regNat_of_some s .srcLen sl hsl,
    regNat_of_some s .dstPtr dp hdp]

theorem encryptOutput_of_some (hc : s.config = some c) (hsp : s.srcPtr = some sp) (hsl : s.srcLen = some sl)
    (hkp : s.keyPtr = some kp) (hkl : s.keyLen = some kl) (hvp : c.getLsbD 9 = true → s.ivPtr = some vp) :
    encryptOutput s = encryptFrame c (memRead s .src sp.toNat sl.toNat) (memRead s .key kp.toNat kl.toNat)
      (if c.getLsbD 9 then memRead s .iv vp.toNat (ivLength c) else randomBytes s (ivLength c)) := by
  rw [encryptOutput, configOf_of_some s c hc, srcRegion_of_some hsp hsl, keyRegion_of_some hkp hkl,
    encryptIv_of_some hc hvp, readRegion, readRegion]

end EncryptOperands

/-- Settles O41: the frame is stored when every check of `keyedChecks` passes, and the first that fails completes the
command. -/
theorem encryptResult : Obligations.EncryptResult := by
  intro s c sp sl kp kl vp dp hc hsp hsl hkp hkl hvp hdp ws m ivLen inputs P K V pc DK B n dst checks
  have hinputs : (encryptInputs s).map span = inputs := by
    rw [encryptInputs_eq_transformInputs hc, map_span_transformInputs hc hsp hsl hkp hkl hvp]
  have houtput : encryptOutput s = (if m = 1 then [BitVec.ofNat 8 pc] else []) ++ V ++ B := by
    rw [encryptOutput_of_some hc hsp hsl hkp hkl hvp, encryptFrame, pad, length_memRead]
    rfl
  have hexec : exec .encrypt s = runCommand s (keyedChecks s (encryptInputs s) ⟨dp.toNat, n⟩)
      (storeResult s ⟨dp.toNat, n⟩ ((if m = 1 then [BitVec.ofNat 8 pc] else []) ++ V ++ B)) := by
    change execEncrypt s = _
    rw [execEncrypt, encryptDst_of_some hc hsl hdp, houtput]
    rfl
  have hholds : KeyedChecksHold s c kl ((encryptInputs s).map span) (span ⟨dp.toNat, n⟩) ↔ checks := by
    rw [hinputs]
    rfl
  rw [hexec, ← hholds, ← hinputs]
  exact ⟨runCommand_keyedChecks_of_pass _ _ _ hc hkl, runCommand_keyedChecks_of_fail _ _ _ hc hkl⟩

/-! ### Malformed frames (43_framing.md R207) -/

/-- The bytes of a frame behind its marker and IV. -/
abbrev frameBody (c : Word32) (S : List Byte) : List Byte := S.drop (markerLen c + ivLength c)

/-- The four malformed cases of a frame, over the bytes of its body. -/
abbrev MalformedFrame (c : Word32) (S : List Byte) : Prop :=
  S.length < markerLen c + ivLength c ∨ (frameBody c S).length % wordSize c ≠ 0 ∨
    frameMarker c S ≥ wordSize c ∨ frameMarker c S > (frameBody c S).length

theorem length_frameBody (c : Word32) (S : List Byte) : (frameBody c S).length = bodyLen c S.length := by
  rw [List.length_drop, bodyLen, Nat.sub_sub]

theorem malformed_iff (c : Word32) (S : List Byte) : malformed c S S.length = true ↔ MalformedFrame c S := by
  simp only [malformed, Bool.or_eq_true, decide_eq_true_eq, bne_iff_ne, MalformedFrame, length_frameBody, or_assoc]

section DecryptOperands

variable {s : State} {c sp sl kp kl dp : Word32}

theorem decryptSource_of_some (hsp : s.srcPtr = some sp) (hsl : s.srcLen = some sl) :
    decryptSource s = memRead s .src sp.toNat sl.toNat := by
  rw [decryptSource, srcRegion_of_some hsp hsl, readRegion]

theorem length_decryptSource (s : State) : (decryptSource s).length = regNat s .srcLen := length_readRegion ..

theorem malformedCheck_passes_iff (hc : s.config = some c) :
    (malformedCheck s).1 = true ↔ ¬ MalformedFrame c (decryptSource s) := by
  rw [malformedCheck, configOf_of_some s c hc, ← length_decryptSource, ← malformed_iff, Bool.not_eq_true',
    Bool.not_eq_true]

theorem decryptDst_of_some (hc : s.config = some c) (hdp : s.dstPtr = some dp) :
    decryptDst s =
      ⟨dp.toNat, (frameBody c (decryptSource s)).length - frameMarker c (decryptSource s)⟩ := by
  rw [decryptDst, dstRegion, configOf_of_some s c hc, regNat_of_some s .dstPtr dp hdp, length_frameBody,
    length_decryptSource]

/-- The padded plaintext of a frame, over the IV and the body that the frame holds. -/
theorem decryptPadded_eq (c : Word32) (S K : List Byte) :
    decryptPadded c S K = transform (wordSize c) (frameBody c S)
      (deriveKey (wordSize c) K ((S.drop (markerLen c)).take (ivLength c)))
      (some ((S.drop (markerLen c)).take (ivLength c))) true := by
  rw [decryptPadded, slice_length, slice, Nat.add_sub_cancel_left]

theorem decryptOutput_of_some (hc : s.config = some c) (hkp : s.keyPtr = some kp) (hkl : s.keyLen = some kl) :
    decryptOutput s =
      (decryptPadded c (decryptSource s) (memRead s .key kp.toNat kl.toNat)).take (decryptDst s).len := by
  rw [decryptOutput, configOf_of_some s c hc, keyRegion_of_some hkp hkl, readRegion, slice, List.drop_zero,
    Nat.sub_zero]

end DecryptOperands

/-! ### The checks of DECRYPT (43_framing.md R208) -/

/-- The checks of DECRYPT: those of `keyedChecks`, with the frame at rank 6 (60_exceptions.md R247). -/
def decryptChecks (s : State) (inputs : List Region) (dst : Region) : List Check :=
  [configCheck s, keyCheck s, inputCheck s inputs, malformedCheck s, destCheck s dst, overlapCheck dst inputs]

/-- A check `p` before a command that ends with `later`, as the statements write it: the completion `own` where the
check is missed (`q`), and `later` where it is not. -/
theorem ended_of_check {p q : Prop} [Decidable p] [Decidable q] (hq : q ↔ ¬ p) (s : State) (own later : Word32) :
    (if p then .next (ended s later) else .next (ended s own) : Host.Outcome State Fault Refusal) =
      .next (ended s (if q then own else later)) := by
  by_cases hp : p
  · rw [if_pos hp, if_neg fun h => hq.1 h hp]
  · rw [if_neg hp, if_pos (hq.2 hp)]

section DecryptChecks

variable {s : State} {c kl : Word32} (effect : State) (inputs : List Region) (dst : Region)

/-- On a frame that is not malformed the frame check changes nothing. -/
theorem runCommand_decryptChecks_of_wellFormed (hc : s.config = some c)
    (hframe : ¬ MalformedFrame c (decryptSource s)) :
    runCommand s (decryptChecks s inputs dst) effect = runCommand s (keyedChecks s inputs dst) effect := by
  have hpass : (malformedCheck s).1 = true := (malformedCheck_passes_iff hc).2 hframe
  simp only [decryptChecks, keyedChecks, runCommand_cons, if_pos hpass]

/-- A malformed frame ends the command before the destination is looked at. -/
theorem runCommand_decryptChecks_of_malformed (hc : s.config = some c) (hkl : s.keyLen = some kl)
    (hframe : MalformedFrame c (decryptSource s)) :
    runCommand s (decryptChecks s inputs dst) effect = .next (ended s (
      if configValid c = false then 0x22#32
      else if ¬ goodKey (wordSize c) kl.toNat then 0x12#32
      else if ∃ r ∈ inputs.map span, ¬ inside s r then 0x106#32
      else 0x32#32)) := by
  have hmissed : ¬ (malformedCheck s).1 = true := fun h => (malformedCheck_passes_iff hc).1 h hframe
  have hinputs : (∃ r ∈ inputs.map span, ¬ inside s r) ↔ ¬ ∀ r ∈ inputs.map span, inside s r := by
    simp only [not_forall, exists_prop]
  rw [← ended_of_check Bool.eq_false_iff, ← ended_of_check Iff.rfl, ← ended_of_check hinputs]
  simp only [decryptChecks, runCommand_cons, configCheck_passes_iff s c hc, keyCheck_passes_iff s c kl hc hkl,
    inputCheck_passes_iff, if_neg hmissed]
  rfl

end DecryptChecks

/-- Settles O42: the plaintext is stored when every check of `decryptChecks` passes, and the first that fails completes
the command. -/
theorem decryptResult : Obligations.DecryptResult := by
  intro s c sp sl kp kl dp hc hsp hsl hkp hkl hdp ws m ivLen inputs S K pc V B bad Q n dst checks
  have hsource : decryptSource s = S := decryptSource_of_some hsp hsl
  have hbad : MalformedFrame c (decryptSource s) ↔ bad := by
    rw [hsource, MalformedFrame, length_memRead]
    rfl
  have hdst : decryptDst s = ⟨dp.toNat, n⟩ := by
    rw [decryptDst_of_some hc hdp, hsource]
    rfl
  have hexec : exec .decrypt s = runCommand s (decryptChecks s [⟨sp.toNat, sl.toNat⟩, ⟨kp.toNat, kl.toNat⟩]
      ⟨dp.toNat, n⟩) (storeResult s ⟨dp.toNat, n⟩ (Q.take n)) := by
    change execDecrypt s = _
    rw [execDecrypt, decryptOutput_of_some hc hkp hkl, hdst, hsource, decryptPadded_eq, srcRegion_of_some hsp hsl,
      keyRegion_of_some hkp hkl, decryptChecks]
  rw [hexec]
  by_cases hframe : bad
  case pos =>
    refine ⟨fun ⟨_, _, _, hgood, _⟩ => absurd hframe hgood, fun _ => ?_⟩
    rw [if_pos hframe]
    exact runCommand_decryptChecks_of_malformed _ _ _ hc hkl (hbad.2 hframe)
  rw [if_neg hframe, runCommand_decryptChecks_of_wellFormed _ _ _ hc (mt hbad.1 hframe)]
  refine ⟨fun ⟨hconfig, hkey, hinside, _, hregions⟩ => ?_, fun hfail => ?_⟩
  · exact runCommand_keyedChecks_of_pass _ _ _ hc hkl ⟨hconfig, hkey, hinside, hregions⟩
  · refine runCommand_keyedChecks_of_fail _ _ _ hc hkl fun ⟨hconfig, hkey, hinside, hregions⟩ => hfail ?_
    exact ⟨hconfig, hkey, hinside, hframe, hregions⟩

end Sys2Proof.Proofs.FramingFamily
end

section
/-! PROOFS. How a command ends without success (60_exceptions.md R241 to R245), and what a faulted device still does
(R244, R249). Each outcome is one STATUS word, so a command's end is known from STATUS.FAULT and STATUS.ERR; and of all
steps of an idle faulted device only reset writes STATUS. -/

namespace Sys2Proof.Proofs.ExceptionsFamily

open Sys2Proof Sys2Proof.Machine Sys2Proof.Claims Sys2Proof.Proofs.StateFamily Sys2Proof.Proofs.MemoryFamily

/-! ### The fields of the STATUS word that each outcome posts (60_exceptions.md R242 to R246) -/

theorem faulted_congr {s t : State} (h : t.status = s.status) : faulted t = faulted s := by rw [faulted, h, faulted]

theorem faulted_of_success {t : State} (h : t.status = successStatus) : faulted t = false := by
  rw [faulted, h]
  decide

theorem err_of_success {t : State} (h : t.status = successStatus) : err t = 0 := by
  rw [err, h]
  decide

@[simp] theorem faulted_abort_error (s : State) (e : ErrCode) : faulted (abort s (.error e)) = false := by
  rw [faulted, abort_status]
  cases e <;> decide

@[simp] theorem faulted_abort_fault (s : State) (c : FaultCause) : faulted (abort s (.fault c)) = true := by
  rw [faulted, abort_status]
  cases c <;> decide

@[simp] theorem err_abort_error (s : State) (e : ErrCode) : err (abort s (.error e)) = errNumber e := by
  rw [err, abort_status]
  cases e <;> decide

@[simp] theorem fcause_abort_error (s : State) (e : ErrCode) : fcause (abort s (.error e)) = 0 := by
  rw [fcause, abort_status]
  cases e <;> decide

@[simp] theorem done_abort (s : State) (a : Abort) : done (abort s a) = true := by
  rw [done, abort_status]
  rcases a with e | c
  · cases e <;> decide
  · cases c <;> decide

/-- The STATUS word of an error, as R243 writes it. -/
theorem abortStatus_error (e : ErrCode) : abortStatus (.error e) = 0x2#32 ||| (BitVec.ofNat 32 (errNumber e) <<< 4) := by
  cases e <;> decide

theorem abortStatus_outOfRange : abortStatus (.fault .outOfRange) = 0x106#32 := by decide

@[simp] theorem faulted_deviceReset (s : State) : faulted (deviceReset s) = false := by
  rw [faulted, deviceReset_status]
  decide

/-! ### How a command ends (60_exceptions.md R241, R243, R244) -/

/-- An abort leaves every register but STATUS and RES_LEN as it was. -/
theorem reg_abort_ne (s : State) (a : Abort) (r : Reg) (hstatus : r ≠ .status) (hresLen : r ≠ .resLen) :
    reg (abort s a) r = reg s r := by
  cases r with
  | status => exact absurd rfl hstatus
  | resLen => exact absurd rfl hresLen
  | _ => rfl

/-- OutOfRange is the only fault of a command (60_exceptions.md R245). -/
theorem eq_error_or_outOfRange (a : Abort) (h : a ∈ engineAborts) : (∃ e, a = .error e) ∨ a = .fault .outOfRange := by
  cases a with
  | error e => exact .inl ⟨e, rfl⟩
  | fault c =>
    cases c with
    | outOfRange => exact .inr rfl
    | hazardWrite => exact absurd h (by decide)

/-- A command ends in an error, in an OutOfRange fault, or with the STATUS of success (60_exceptions.md R241). -/
theorem exec_outcome (i : Instr) (s t : State) (h : exec i s = .next t) :
    (∃ e, t = abort s (.error e)) ∨ t = abort s (.fault .outOfRange) ∨ t.status = successStatus := by
  rcases exec_cases i s t h with ⟨a, ha, rfl⟩ | ⟨v, n, -, rfl⟩ | ⟨bytes, -, -, -, rfl⟩
  · rcases eq_error_or_outOfRange a ha with ⟨e, rfl⟩ | rfl
    · exact .inl ⟨e, rfl⟩
    · exact .inr (.inl rfl)
  · exact .inr (.inr (succeed_status _))
  · exact .inr (.inr (succeed_status _))

theorem eq_abort_error_of_err (i : Instr) (s t : State) (h : exec i s = .next t) (hfault : faulted t = false)
    (herr : err t ≠ 0) : ∃ e, t = abort s (.error e) := by
  rcases exec_outcome i s t h with herror | rfl | hsuccess
  · exact herror
  · simp at hfault
  · exact absurd (err_of_success hsuccess) herr

theorem eq_abort_outOfRange_of_faulted (i : Instr) (s t : State) (h : exec i s = .next t)
    (hfault : faulted t = true) : t = abort s (.fault .outOfRange) := by
  rcases exec_outcome i s t h with ⟨e, rfl⟩ | heq | hsuccess
  · simp at hfault
  · exact heq
  · simp [faulted_of_success hsuccess] at hfault

/-- Settles O29: a command with STATUS.ERR other than 0 is an abort with an error code, whose fields are those of one
STATUS word. -/
theorem errorCompletion : Obligations.ErrorCompletion := by
  intro i s t h hfault herr
  obtain ⟨e, rfl⟩ := eq_abort_error_of_err i s t h hfault herr
  exact ⟨by rw [abort_status, err_abort_error, abortStatus_error], abort_resLen _ _, abort_mem _ _,
    reg_abort_ne s _, busy_abort _ _, done_abort _ _, fcause_abort_error _ _⟩

/-! ### The host's lines on an idle device -/

/-- A line that exists is not refused (20_memory.md R81, R82). -/
theorem hostAccess_of_ordinary (s : State) (op : HostOp) (h : ordinary s op) : ∃ t, hostAccess s op = .next t := by
  cases op with
  | wr o v => exact ⟨_, if_pos ((regOffsetLegal_iff o).2 h)⟩
  | rd o => exact ⟨_, if_pos ((regOffsetLegal_iff o).2 h)⟩
  | sb a b => exact ⟨_, if_pos ((bufOffsetLegal_iff s a).2 h)⟩
  | lb a => exact ⟨_, if_pos ((bufOffsetLegal_iff s a).2 h)⟩
  | poll => exact ⟨_, rfl⟩
  | rst => exact h.elim
  | badWidth sp => exact h.elim

/-- While idle, every access leaves the rest of the host's lines alone: a poll is done with one read. -/
theorem hostAccess_host_of_idle (s t : State) (op : HostOp) (hidle : busy s = false) (h : hostAccess s op = .next t) :
    t.host = s.host := by
  rcases hostAccess_cases s t op h with ⟨o, v, -, -, rfl⟩ | ⟨o, -, -, rfl⟩ | ⟨a, b, -, -, rfl⟩ | ⟨a, -, -, rfl⟩ |
    ⟨-, rfl⟩ | ⟨-, ⟨hbusy, -⟩ | ⟨-, rfl⟩⟩
  · obtain ⟨-, hlines, -⟩ := hostWriteReg_frame s o v hidle
    exact hlines
  · rfl
  · rw [hostWriteByte_of_idle s a b hidle, count_host]
  · rfl
  · rfl
  · simp [hidle] at hbusy
  · rfl

/-- A step of an idle device is a wait or the host's access. -/
theorem step_cases_of_idle (s t : State) (hidle : busy s = false) (h : step s = .next t) :
    (s.host = [] ∧ t = s) ∨ ∃ op rest, s.host = op :: rest ∧ hostAccess (takeLine s rest) op = .next t := by
  rcases step_cases s t h with ⟨hturn, -⟩ | ⟨-, hhost⟩
  · simp [engineTurn_of_idle s hidle] at hturn
  · exact hhost

theorem step_next_unique {s t u : State} (ht : step s = .next t) (hu : step s = .next u) : t = u :=
  Host.Outcome.next.inj (ht.symm.trans hu)

/-! ### A fault stays until reset (60_exceptions.md R249) -/

/-- No register write changes STATUS of an idle faulted device: the issue is ignored. -/
theorem hostWriteReg_status_of_faulted (s : State) (o : Nat) (v : Word32) (hidle : busy s = false)
    (hfault : faulted s = true) : (hostWriteReg s o v).status = s.status := by
  rcases hostWriteReg_cases s o v with ⟨hbusy, -⟩ | ⟨-, h | ⟨-, h⟩ | ⟨r, -, -, h⟩⟩
  · simp [hidle] at hbusy
  · rw [h]
  · rw [h, issue_of_faulted s v hfault]
  · rw [h, setReg_status]

/-- No access but reset changes STATUS of an idle faulted device. -/
theorem hostAccess_status_of_faulted (s t : State) (op : HostOp) (hidle : busy s = false) (hfault : faulted s = true)
    (hrst : op ≠ .rst) (h : hostAccess s op = .next t) : t.status = s.status := by
  rcases hostAccess_cases s t op h with ⟨o, v, -, -, rfl⟩ | ⟨o, -, -, rfl⟩ | ⟨a, b, -, -, rfl⟩ | ⟨a, -, -, rfl⟩ |
    ⟨hop, -⟩ | ⟨-, ⟨-, rfl⟩ | ⟨-, rfl⟩⟩
  · exact hostWriteReg_status_of_faulted s o v hidle hfault
  · rfl
  · rw [hostWriteByte_of_idle s a b hidle, count_status]
  · rfl
  · exact absurd hop hrst
  · rfl
  · rfl

theorem step_status_of_faulted (s t : State) (hidle : busy s = false) (hfault : faulted s = true)
    (hrst : ∀ rest, s.host ≠ .rst :: rest) (h : step s = .next t) : t.status = s.status := by
  rcases step_cases_of_idle s t hidle h with ⟨-, rfl⟩ | ⟨op, rest, hhost, haccess⟩
  · rfl
  · have hop : op ≠ .rst := by
      rintro rfl
      exact hrst rest hhost
    exact hostAccess_status_of_faulted (takeLine s rest) t op hidle hfault hop haccess

theorem step_of_idle_reset (s : State) (rest : List HostOp) (hidle : busy s = false) (hhost : s.host = .rst :: rest) :
    step s = .next (count (deviceReset (takeLine s rest))) :=
  step_of_idle_line s .rst rest hidle hhost

/-- Settles O26: reset clears FAULT, every other step of an idle faulted device keeps STATUS, and an issue posts a STATUS
word with no ERR and no DONE. -/
theorem faultClearedOnlyByReset : Obligations.FaultClearedOnlyByReset := by
  refine ⟨fun s t hfault hidle hstep => ⟨?_, fun hrst => ?_⟩, fun s v rest hidle hfault hhost => ?_⟩
  · rintro ⟨rest, hhost⟩
    rw [step_next_unique hstep (step_of_idle_reset s rest hidle hhost)]
    exact faulted_deviceReset (takeLine s rest)
  · have hstatus := step_status_of_faulted s t hidle hfault hrst hstep
    exact ⟨(faulted_congr hstatus).trans hfault, hstatus⟩
  · obtain ⟨t, hstep, -, -, -, -, -, -, hissue⟩ := hostRegisterWrites s 0x08 v rest hidle hhost (by decide) (by decide)
    obtain ⟨-, hstatus, -⟩ := hissue rfl hfault
    refine ⟨t, hstep, ?_⟩
    rw [err, done, busy, hstatus]
    decide

/-! ### What still works after an OutOfRange fault (60_exceptions.md R244) -/

theorem idle_and_faulted_of_outOfRange (s : State) (h : s.status = 0x106#32) : busy s = false ∧ faulted s = true := by
  rw [busy, faulted, h]
  decide

/-- An ordinary line of an idle faulted device is performed, is off the list, and keeps STATUS. -/
theorem step_ordinary_of_faulted (s : State) (op : HostOp) (rest : List HostOp) (hidle : busy s = false)
    (hfault : faulted s = true) (hhost : s.host = op :: rest) (hop : ordinary s op) :
    ∃ t, step s = .next t ∧ t.status = s.status ∧ t.host = rest := by
  obtain ⟨t, haccess⟩ := hostAccess_of_ordinary (takeLine s rest) op hop
  have hrst : op ≠ .rst := by
    rintro rfl
    exact hop
  exact ⟨t, (step_of_idle_line s op rest hidle hhost).trans haccess,
    hostAccess_status_of_faulted (takeLine s rest) t op hidle hfault hrst haccess,
    hostAccess_host_of_idle (takeLine s rest) t op hidle haccess⟩

/-- Settles O30: a faulting command is an OutOfRange abort; after it every ordinary line is the access of an idle device,
and the issue is the one that FAULT makes the device ignore. -/
theorem faultCompletion : Obligations.FaultCompletion := by
  refine ⟨fun i s t h hfault => ?_, fun s op rest hstatus hhost hop => ?_⟩
  · obtain rfl := eq_abort_outOfRange_of_faulted i s t h hfault
    exact ⟨abortStatus_outOfRange, abort_resLen _ _, abort_mem _ _, reg_abort_ne s _⟩
  obtain ⟨hidle, hfault⟩ := idle_and_faulted_of_outOfRange s hstatus
  obtain ⟨t, hstep, hkeeps, hrest⟩ := step_ordinary_of_faulted s op rest hidle hfault hhost hop
  refine ⟨t, hstep, hkeeps.trans hstatus, hrest, ?_, ?_, ?_, ?_, ?_⟩
  · rintro ⟨v, rfl⟩
    obtain ⟨u, hu, hmem, -, -, -, -, hignored, -⟩ := hostRegisterWrites s _ v rest hidle hhost hop.1 hop.2
    obtain rfl := step_next_unique hstep hu
    exact ⟨hignored rfl hfault, hmem⟩
  · rintro r v hr rfl
    obtain ⟨u, hu, -, -, -, hstores, -⟩ := hostRegisterWrites s _ v rest hidle hhost hop.1 hop.2
    obtain rfl := step_next_unique hstep hu
    exact (hstores r hr rfl).1
  · rintro a b rfl
    obtain ⟨u, hu, -, -, -, hstored, -⟩ := (hostBufferAccesses s a rest hidle hop).2 b hhost
    obtain rfl := step_next_unique hstep hu
    exact hstored
  · rintro r x rfl hdefined
    obtain ⟨u, w, hu, hanswer, hvalue, -⟩ := hostRegisterReads s _ rest hidle hhost hop.1 hop.2
    obtain rfl := step_next_unique hstep hu
    rwa [← hvalue r x rfl hdefined]
  · rintro a b rfl hdefined
    obtain ⟨u, w, hu, hanswer, hvalue, -⟩ := (hostBufferAccesses s a rest hidle hop).1 hhost
    obtain rfl := step_next_unique hstep hu
    rwa [← hvalue b hdefined]

end Sys2Proof.Proofs.ExceptionsFamily
end

section
/-! PROOFS. 70_reset_and_hazards.md: what reset leaves (R270 to R272), and what a host access to a busy device does on
the host's turn: a write is a HazardWrite (R275), a read only records its answer (R276). -/

namespace Sys2Proof.Proofs.ResetFamily

open Sys2Proof Sys2Proof.Machine Sys2Proof.Claims Sys2Proof.Proofs.StateFamily Sys2Proof.Proofs.MemoryFamily
  Sys2Proof.Proofs.EncodingFamily Sys2Proof.Proofs.ExceptionsFamily

/-! ### Reset (R270 to R272) -/

/-- Reset leaves every register but the two constants at 0. -/
theorem reg_deviceReset (s : State) (r : Reg) (hid : r ≠ .id) (hsize : r ≠ .bufSize) :
    reg (deviceReset s) r = some 0#32 := by
  cases r with
  | id => exact absurd rfl hid
  | bufSize => exact absurd rfl hsize
  | _ => rfl

/-- The reset state is a fixed point of `deviceReset`, by definition, so what reset leaves holds of it. -/
theorem reg_reset (r : Reg) (hid : r ≠ .id) (hsize : r ≠ .bufSize) : reg State.reset r = some 0#32 :=
  reg_deviceReset State.reset r hid hsize

theorem busy_reset : busy State.reset = false := busy_deviceReset State.reset

/-- `BUF_BYTES` is at most `2^31` (00_scope.md R10), so BUFSIZE holds it. -/
theorem toNat_reset_bufSize : State.reset.bufSize.toNat = Config.bufBytes := by
  have hlt : Config.bufBytes < 2 ^ 32 := by
    have hbound := Config.bufBytesLessOne.isLt
    rw [Config.bufBytes]
    omega
  rw [State.reset, BitVec.toNat_ofNat, Nat.mod_eq_of_lt hlt]

/-- Settles O8: the reset device is idle, so each offset reads as its register's value, and no byte is defined. -/
theorem resetValues : Obligations.ResetValues := by
  have hconfig : configOf State.reset = 0#32 := configOf_of_some State.reset 0#32 rfl
  refine ⟨hostReadReg_of_stable State.reset 0x00 .id rfl rfl, fun r hr => ?_, ?_,
    fun o ho => hostReadReg_of_reserved State.reset o (regAt_reserved o (by simpa using ho)),
    fun a => ⟨rfl, hostReadByte_of_undefined State.reset a busy_reset rfl⟩, ?_⟩
  · have hvalue : reg State.reset r = some 0#32 := by
      apply reg_reset r <;>
        · rintro rfl
          exact absurd hr (by decide)
    exact ⟨hvalue, (hostReadReg_of_idle State.reset r busy_reset).trans (regValue_of_some State.reset r _ hvalue)⟩
  · rw [hostReadReg_of_stable State.reset 0x30 .bufSize rfl rfl]
    exact toNat_reset_bufSize
  · rw [hconfig]
    decide

/-- Settles O24: on the host's turn the reset line is one `deviceReset`, and of the steps of an idle faulted device
only a reset clears FAULT (60_exceptions.md R249). -/
theorem resetLine : Obligations.ResetLine := by
  refine ⟨fun s rest hturn hhost => ?_, fun s t hidle hfault hstep hcleared => ?_⟩
  · have hbusy : busy (count (deviceReset (takeLine s rest))) = false := busy_deviceReset (takeLine s rest)
    refine ⟨_, step_of_hostLine s .rst rest hturn hhost, rfl, rfl, fun r hid hsize => ?_, fun a => rfl,
      ⟨hbusy, engineTurn_of_idle _ hbusy⟩, rfl, rfl⟩
    rw [reg_count, reg_deviceReset _ r hid hsize]
  · by_contra hrst
    obtain ⟨hkept, -⟩ := (faultClearedOnlyByReset.1 s t hfault hidle hstep).2 (not_exists.1 hrst)
    simp [hkept] at hcleared

/-! ### Reads while busy (R276) -/

theorem stable_of_mem_steadyRegs {r : Reg} (h : r ∈ steadyRegs) : unstableWhileBusy r = false := by
  rw [steadyRegs] at h
  fin_cases h <;> rfl

/-- A register that the device may be updating reads as a draw while busy. -/
theorem hostReadReg_of_unstable (s : State) (r : Reg) (hbusy : busy s = true) (hr : unstableWhileBusy r = true) :
    hostReadReg s (regOffset r) = Config.draw32 s.events (regOffset r) := by
  simp [hostReadReg, hbusy, hr]

theorem hostReadByte_of_busy (s : State) (a : Nat) (hbusy : busy s = true) :
    hostReadByte s a = Config.draw8 s.events .host a := by
  rw [hostReadByte, if_pos hbusy]

theorem status_bit_of_busy (s : State) (hbusy : busy s = true) : s.status.getLsbD 0 = true :=
  (bits_one_eq_one_iff s.status 0).1 (beq_iff_eq.1 hbusy)

/-- On the host's turn, busy or not, a register read records its answer. -/
theorem step_of_read (s : State) (o : Nat) (rest : List HostOp) (hturn : engineTurn s = false)
    (hhost : s.host = .rd o :: rest) (ho : regOffsetLegal o = true) :
    step s = .next (count (answer (takeLine s rest) (.reg o (hostReadReg s o)))) := by
  rw [step_of_hostLine s _ rest hturn hhost, hostAccess, if_pos ho, hostReadReg_takeLine]

/-- On the host's turn, busy or not, a byte read records its answer. -/
theorem step_of_byte_read (s : State) (a : Nat) (rest : List HostOp) (hturn : engineTurn s = false)
    (hhost : s.host = .lb a :: rest) (ha : a < s.bufSize.toNat) :
    step s = .next (count (answer (takeLine s rest) (.buf a (hostReadByte s a)))) := by
  have hlegal := (bufOffsetLegal_iff (takeLine s rest) a).2 ha
  rw [step_of_hostLine s _ rest hturn hhost, hostAccess, if_pos hlegal, hostReadByte_takeLine]

/-- Settles O19: a read while busy is recorded and changes nothing; it answers the value at a stable register's offset
and a draw at DATA, RES_LEN and every byte. -/
theorem readsWhileBusy : Obligations.ReadsWhileBusy := by
  intro s rest hbusy hturn
  refine ⟨fun o hhost haligned hle => ?_, fun a hhost ha => ?_⟩
  · have hlegal := (regOffsetLegal_iff o).2 ⟨haligned, hle⟩
    refine ⟨_, hostReadReg s o, step_of_read s o rest hturn hhost hlegal, answered_count_answer s rest _, ?_, ?_, ?_,
      ?_, ?_, fun hreserved => hostReadReg_of_reserved s o (regAt_reserved o hreserved)⟩
    · rintro rfl
      have hvalue : hostReadReg s 0x0C = s.status := hostReadReg_of_stable s _ .status rfl rfl
      exact ⟨hvalue, hvalue ▸ status_bit_of_busy s hbusy⟩
    · rintro rfl
      exact hostReadReg_of_stable s _ .id rfl rfl
    · rintro rfl
      exact hostReadReg_of_stable s _ .bufSize rfl rfl
    · rintro r x hr rfl hdefined
      rw [hostReadReg_of_stable s _ r (regAt_regOffset r) (stable_of_mem_steadyRegs hr),
        regValue_of_some s r x hdefined]
    · rintro (rfl | rfl)
      · exact hostReadReg_of_unstable s .data hbusy rfl
      · exact hostReadReg_of_unstable s .resLen hbusy rfl
  · refine ⟨_, step_of_byte_read s a rest hturn hhost ha, ?_⟩
    rw [hostReadByte_of_busy s a hbusy]
    exact answered_count_answer s rest _

/-! ### HazardWrite (R275) -/

theorem mem_steadyRegs_iff (r : Reg) : r ∈ steadyRegs ↔ hazardTarget r = true := by
  cases r <;> decide

theorem regAt_eq_some_iff (o : Nat) (r : Reg) : regAt o = some r ↔ o = regOffset r :=
  ⟨fun h => (regOffset_of_regAt o r h).symm, fun h => h ▸ regAt_regOffset r⟩

theorem abortStatus_hazardWrite : abortStatus (.fault .hazardWrite) = 0x206#32 := by decide

theorem hazardWrite_status (s : State) (target : Option Reg) :
    (hazardWrite s target).status = abortStatus (.fault .hazardWrite) := by
  obtain ⟨hstatus, -⟩ := hazardWrite_effect s target
  exact hstatus

theorem busy_hazardWrite (s : State) (target : Option Reg) : busy (hazardWrite s target) = false := by
  rw [busy, hazardWrite_status]
  decide

theorem faulted_hazardWrite (s : State) (target : Option Reg) : faulted (hazardWrite s target) = true := by
  rw [faulted, hazardWrite_status]
  decide

/-- The registers after a HazardWrite that targets none of them. -/
theorem reg_hazardWrite_none (s : State) (r : Reg) :
    reg (hazardWrite s none) r =
      if r = .status then some 0x206#32 else if r = .data ∨ r = .resLen then none else reg s r := by
  cases r with
  | status => exact congrArg some abortStatus_hazardWrite
  | _ => rfl

/-- A HazardWrite that targets a register leaves that one undefined too, when it is one of the eight of R275. -/
theorem hazardWrite_some (s : State) (q : Reg) :
    hazardWrite s (some q) =
      if hazardTarget q = true then setReg (hazardWrite s none) q none else hazardWrite s none := rfl

theorem reg_hazardWrite_target (s : State) (q : Reg) (h : hazardTarget q = true) :
    reg (hazardWrite s (some q)) q = none := by
  rw [hazardWrite_some, if_pos h]
  refine reg_setReg_self _ q none ⟨?_, ?_, ?_⟩ <;>
    · rintro rfl
      cases h

theorem reg_hazardWrite_other (s : State) (target : Option Reg) (r : Reg)
    (h : ¬ (hazardTarget r = true ∧ target = some r)) :
    reg (hazardWrite s target) r = reg (hazardWrite s none) r := by
  cases target with
  | none => rfl
  | some q =>
    rw [hazardWrite_some]
    split
    next hq =>
      refine reg_setReg_ne _ q r none ?_
      rintro rfl
      exact h ⟨hq, rfl⟩
    next => rfl

/-- The three registers that every HazardWrite changes are not among the eight that it may target. -/
theorem not_always_hazarded_of_target {r : Reg} (h : hazardTarget r = true) :
    r ≠ .status ∧ ¬ (r = .data ∨ r = .resLen) := by
  cases r <;> simp [hazardTarget] at h ⊢

/-- Every register after a HazardWrite. -/
theorem reg_hazardWrite (s : State) (target : Option Reg) (r : Reg) :
    reg (hazardWrite s target) r =
      if r = .status then some 0x206#32
      else if r = .data ∨ r = .resLen then none
      else if hazardTarget r = true ∧ target = some r then none
      else reg s r := by
  by_cases h : hazardTarget r = true ∧ target = some r
  · obtain ⟨hr, rfl⟩ := h
    obtain ⟨hstatus, hresults⟩ := not_always_hazarded_of_target hr
    rw [reg_hazardWrite_target s r hr, if_neg hstatus, if_neg hresults, if_pos ⟨hr, rfl⟩]
  · rw [reg_hazardWrite_other s target r h, reg_hazardWrite_none, if_neg h]

/-- The register that a host line writes, none for a line that writes no register or a reserved offset. -/
def writtenReg (op : HostOp) : Option Reg := (writtenOffset op).bind regAt

theorem writtenReg_eq_some_iff (op : HostOp) (r : Reg) :
    writtenReg op = some r ↔ writtenOffset op = some (regOffset r) := by
  rw [writtenReg, Option.bind_eq_some_iff]
  simp [regAt_eq_some_iff]

/-- A host write to a busy device, of a register or a byte that exists, is a HazardWrite. -/
theorem hostAccess_of_busy_write (s : State) (op : HostOp) (hbusy : busy s = true)
    (hop : (∃ o v, op = .wr o v ∧ o % 4 = 0 ∧ o ≤ 0x3C) ∨ ∃ a b, op = .sb a b ∧ a < s.bufSize.toNat) :
    hostAccess s op = .next (count (hazardWrite s (writtenReg op))) := by
  rcases hop with ⟨o, v, rfl, ho⟩ | ⟨a, b, rfl, ha⟩
  · rw [hostAccess, if_pos ((regOffsetLegal_iff o).2 ho), hostWriteReg, if_pos hbusy]
    rfl
  · rw [hostAccess, if_pos ((bufOffsetLegal_iff s a).2 ha), hostWriteByte, if_pos hbusy]
    rfl

/-- A CMD write to an idle faulted device changes no register (20_memory.md R85). -/
theorem step_of_ignored_issue (s : State) (v : Word32) (rest : List HostOp) (hidle : busy s = false)
    (hfault : faulted s = true) (hhost : s.host = .wr 0x08 v :: rest) :
    ∃ u, step s = .next u ∧ ∀ r, reg u r = reg s r := by
  obtain ⟨u, hstep, -, -, -, -, -, hignored, -⟩ :=
    hostRegisterWrites s 0x08 v rest hidle hhost (by decide) (by decide)
  exact ⟨u, hstep, hignored rfl hfault⟩

/-- The engine's step, whatever the pending word, ends BUSY and leaves the host's lines alone. -/
theorem step_of_engineTurn (s : State) (hturn : engineTurn s = true) :
    ∃ t, step s = .next t ∧ busy t = false ∧ t.host = s.host := by
  cases hd : decode (commandPending s) with
  | ok i =>
    obtain ⟨t, hexec⟩ := exec_next i s
    exact ⟨t, (step_of_decode s i hturn hd).trans hexec, exec_idle i s t hexec⟩
  | error e => exact ⟨_, step_of_decode_error s e hturn hd, busy_abort _ _, abort_host _ _⟩

/-- Settles O18: on the host's turn the write is one `hazardWrite`, which leaves an idle faulted device; on the
engine's turn the command ends first. -/
theorem hazardWriteFault : Obligations.HazardWriteFault := by
  intro s op rest hbusy hhost hop
  refine ⟨fun hturn => ?_, fun hturn => ?_⟩
  · have haccess := hostAccess_of_busy_write (takeLine s rest) op hbusy hop
    obtain ⟨-, hmem, -, -, -, hlines, hreads, -⟩ := hazardWrite_effect (takeLine s rest) (writtenReg op)
    have hidle := busy_hazardWrite (takeLine s rest) (writtenReg op)
    refine ⟨_, (step_of_hostLine s op rest hturn hhost).trans haccess, fun a => ?_, fun r => ?_,
      engineTurn_of_idle _ hidle, hlines, hreads, fun v rest' hrest => ?_⟩
    · rw [count_mem, hmem, Memory.read?]
    · rw [reg_count, reg_hazardWrite, reg_takeLine]
      simp only [mem_steadyRegs_iff, writtenReg_eq_some_iff]
    · exact step_of_ignored_issue _ v rest' hidle (faulted_hazardWrite _ _) (hlines.trans hrest)
  · rw [← hhost]
    exact step_of_engineTurn s hturn

end Sys2Proof.Proofs.ResetFamily
end

section
/-! PROOFS. Command words, CONFIG and the steps that they start: the round trip of the encoding (30_encoding.md R125,
R128), the quantities of a valid CONFIG (00_scope.md R13), and the step that executes an issued command
(60_exceptions.md R240). -/

namespace Sys2Proof.Proofs.CommandWords

open Sys2Proof Sys2Proof.Machine Sys2Proof.Claims Sys2Proof.Proofs.StateFamily Sys2Proof.Proofs.MemoryFamily
  Sys2Proof.Proofs.EncodingFamily

/-! ### The round trip (30_encoding.md R125, R128) -/

/-- Settles O4: a word decodes to a command exactly when it is that command's word. -/
theorem decodeAndEncodeAgree : Obligations.DecodeAndEncodeAgree :=
  ⟨decode_encode, fun w i => (decode_eq_ok_iff w i).1⟩

/-- A row of the opcode table that holds a command's word decodes to that command. -/
theorem decodeTableWord_encode (i : Instr) : decodeTableWord 32 (encode i).toNat = some i := by
  have hlt : (encode i).toNat < 2 ^ 32 := (encode i).isLt
  rw [decodeTableWord, Nat.mod_eq_of_lt hlt, if_pos hlt, BitVec.ofNat_toNat, BitVec.setWidth_eq, decode_encode]

/-- Settles O1: the ten rows are the words of the ten commands. -/
theorem tableWordsDecode : Obligations.TableWordsDecode :=
  ⟨decodeTableWord_encode .readWord, decodeTableWord_encode .writeWord, decodeTableWord_encode .transformEnc,
    decodeTableWord_encode .transformDec, decodeTableWord_encode .transformEncIv,
    decodeTableWord_encode .transformDecIv, decodeTableWord_encode .derive, decodeTableWord_encode .rngFill,
    decodeTableWord_encode .encrypt, decodeTableWord_encode .decrypt⟩

/-! ### The quantities of a valid CONFIG (00_scope.md R13) -/

theorem wordSize_eq_pow (c : Word32) : wordSize c = 2 ^ (c.extractLsb 1 0).toNat := by
  rw [wordSize, bits_eq_extractLsb, Nat.one_shiftLeft]

theorem ivLength_eq_pow (c : Word32) : ivLength c = 8 * 2 ^ (c.extractLsb 6 4).toNat := by
  rw [ivLength, bits_eq_extractLsb, Nat.shiftLeft_eq]

theorem markerLen_eq_extractLsb (c : Word32) : markerLen c = (c.extractLsb 8 8).toNat := bits_eq_extractLsb c 8 8

/-- A valid CONFIG has WSZ at most 2 and IVL at most 5 (10_state.md R39). -/
theorem fields_le_of_valid (c : Word32) (h : configValid c = true) :
    (c.extractLsb 1 0).toNat ≤ 2 ∧ (c.extractLsb 6 4).toNat ≤ 5 := by
  obtain ⟨hwsz, hivl, -⟩ := (configValid_iff c).1 h
  have hlt := (c.extractLsb 1 0).isLt
  omega

/-- A valid CONFIG without a marker has words of one byte (10_state.md R39). -/
theorem wordSize_of_no_marker (c : Word32) (h : configValid c = true) (hm : markerLen c = 0) : wordSize c = 1 := by
  obtain ⟨-, -, -, hmark, -⟩ := (configValid_iff c).1 h
  have hoff : c.getLsbD 8 = false := (bits_one_eq_zero_iff c 8).1 hm
  have hwsz : (c.extractLsb 1 0).toNat = 0 := hmark.resolve_left (by rw [hoff]; decide)
  rw [wordSize_eq_pow, hwsz, Nat.pow_zero]

theorem wordSize_mem_of_valid (c : Word32) (h : configValid c = true) : wordSize c ∈ [1, 2, 4] := by
  simpa using wordSize_of_valid c h

theorem ivLength_mem_of_valid (c : Word32) (h : configValid c = true) :
    ivLength c ∈ [8, 16, 32, 64, 128, 256] := by
  obtain ⟨-, hivl⟩ := fields_le_of_valid c h
  rw [ivLength_eq_pow]
  generalize (c.extractLsb 6 4).toNat = n at hivl
  interval_cases n <;> decide

/-- The IV is `2 ^ (3 + IVL - WSZ)` words. -/
theorem ivLength_div_wordSize (c : Word32) (h : configValid c = true) :
    ivLength c / wordSize c = 2 ^ (3 + (c.extractLsb 6 4).toNat - (c.extractLsb 1 0).toNat) := by
  obtain ⟨hwsz, -⟩ := fields_le_of_valid c h
  have height : ivLength c = 2 ^ (3 + (c.extractLsb 6 4).toNat) := by rw [ivLength_eq_pow, Nat.pow_add]
  rw [height, wordSize_eq_pow, Nat.pow_div (by omega) (by decide)]

/-- Settles O7: every quantity is a power of two read off the fields WSZ and IVL, which are in their ranges. -/
theorem configQuantities : Obligations.ConfigQuantities := by
  intro c h
  obtain ⟨hwsz, hivl⟩ := fields_le_of_valid c h
  exact ⟨⟨wordSize_eq_pow c, wordSize_mem_of_valid c h⟩, ⟨ivLength_eq_pow c, ivLength_mem_of_valid c h⟩,
    ⟨markerLen_eq_extractLsb c, wordSize_of_no_marker c h⟩, ivLength_words c h,
    _, by omega, by omega, ivLength_div_wordSize c h⟩

/-- Settles O21: the 72 values that the line admits, one by one. -/
theorem cfgLineValue : Obligations.CfgLineValue := by
  unfold Obligations.CfgLineValue
  decide

/-! ### Issue and execution (20_memory.md R85, 60_exceptions.md R240) -/

/-- On the engine's turn the command whose word is pending is executed. -/
theorem step_of_pending (s : State) (w : Word32) (i : Instr) (hturn : engineTurn s = true) (hcmd : s.cmd = some w)
    (hdecode : decode w = .ok i) : step s = exec i s :=
  step_of_decode s i hturn (by rw [commandPending_of_some s w hcmd, hdecode])

/-- Settles O27: a busy device with no host access to come first is on the engine's turn. -/
theorem stepRunsTheDecodedCommand : Obligations.StepRunsTheDecodedCommand :=
  fun s w i hbusy hfirst => step_of_pending s w i (engineTurn_of_pending s hbusy hfirst)

/-- Settles O22: the line is a CMD write of an idle device, and the word it stores decodes to the command. -/
theorem issuedCommandRuns : Obligations.IssuedCommandRuns := by
  intro i s rest hidle hfault hhost
  refine ⟨?_, fun t hcmd hturn => step_of_pending t (encode i) i hturn hcmd (decode_encode i), rfl⟩
  obtain ⟨t, hstep, hmem, hrest, -, -, -, -, hissue⟩ :=
    hostRegisterWrites s 0x08 (encode i) rest hidle hhost (by decide) (by decide)
  obtain ⟨hcmd, hstatus, hother⟩ := hissue rfl hfault
  exact ⟨t, hstep, hcmd, hstatus, hrest, hmem, hother⟩

end Sys2Proof.Proofs.CommandWords
end

section
/-! PROOFS. What a command leaves behind it (60_exceptions.md R241 to R246): its one outcome, the registers and the
bytes that it leaves alone, and the bytes that it defines. All of it is read off the three ways a command ends
(`exec_cases`). -/

namespace Sys2Proof.Proofs.CommandFrames

open Sys2Proof Sys2Proof.Machine Sys2Proof.Claims Sys2Proof.Proofs.ExceptionsFamily

/-! ### The outcome (60_exceptions.md R241) -/

theorem errNumber_range (e : ErrCode) : 1 ≤ errNumber e ∧ errNumber e ≤ 6 := by
  cases e <;> decide

theorem successStatus_eq : successStatus = 0x2#32 := by decide

theorem done_of_success {t : State} (h : t.status = successStatus) : done t = true := by
  rw [done, h]
  decide

theorem fields_abort_outOfRange (s : State) :
    err (abort s (.fault .outOfRange)) = 0 ∧ fcause (abort s (.fault .outOfRange)) = 1 := by
  rw [err, fcause, abort_status]
  decide

/-- Settles O28: a command aborts with an error, aborts with OutOfRange, or posts success. -/
theorem everyCommandHasOneOutcome : Obligations.EveryCommandHasOneOutcome := by
  intro i s
  obtain ⟨t, h⟩ := exec_next i s
  obtain ⟨hidle, -⟩ := exec_idle i s t h
  rcases exec_outcome i s t h with ⟨e, rfl⟩ | rfl | hsuccess
  · have hcode := errNumber_range e
    exact ⟨_, h, ⟨hidle, done_abort _ _⟩, .inr (.inl ⟨rfl, by simp, by simpa using hcode⟩)⟩
  · exact ⟨_, h, ⟨hidle, done_abort _ _⟩, .inr (.inr ⟨rfl, by simp, fields_abort_outOfRange s⟩)⟩
  · exact ⟨t, h, ⟨hidle, done_of_success hsuccess⟩,
      .inl ⟨hsuccess.trans successStatus_eq, faulted_of_success hsuccess, err_of_success hsuccess⟩⟩

/-! ### The registers (10_state.md R45) -/

theorem reg_succeed_ne (s : State) (r : Reg) (h : r ≠ .status) : reg (succeed s) r = reg s r := by
  cases r with
  | status => exact absurd rfl h
  | _ => rfl

theorem reg_storeResult_ne (s : State) (dst : Region) (bytes : List Byte) (r : Reg) (h : r ≠ .resLen) :
    reg (storeResult s dst bytes) r = reg s r := by
  cases r with
  | resLen => exact absurd rfl h
  | _ => rfl

theorem reg_loadResult_ne (s : State) (v n : Nat) (r : Reg) (hresLen : r ≠ .resLen) (hdata : r ≠ .data) :
    reg (loadResult s v n) r = reg s r := by
  cases r with
  | resLen => exact absurd rfl hresLen
  | data => exact absurd rfl hdata
  | _ => rfl

/-- A command leaves every register but STATUS and RES_LEN, and for READ_WORD also DATA, as it was. -/
theorem exec_reg_frame (i : Instr) (s t : State) (h : exec i s = .next t) (r : Reg) (hstatus : r ≠ .status)
    (hresLen : r ≠ .resLen) (hdata : ¬ (i = .readWord ∧ r = .data)) : reg t r = reg s r := by
  rcases exec_cases i s t h with ⟨a, -, rfl⟩ | ⟨v, n, hi, rfl⟩ | ⟨bytes, -, -, -, rfl⟩
  · exact reg_abort_ne s a r hstatus hresLen
  · rw [reg_succeed_ne _ r hstatus, reg_loadResult_ne s v n r hresLen fun hr => hdata ⟨hi, hr⟩]
  · rw [reg_succeed_ne _ r hstatus, reg_storeResult_ne s _ bytes r hresLen]

/-- The STATUS words a command can end with: success, the six errors and OutOfRange (10_state.md R43). -/
def completionStatuses : List Word32 := [0x2#32, 0x12#32, 0x22#32, 0x32#32, 0x42#32, 0x52#32, 0x62#32, 0x106#32]

theorem abortStatus_mem_completionStatuses : ∀ a ∈ engineAborts, abortStatus a ∈ completionStatuses := by decide

theorem exec_status (i : Instr) (s t : State) (h : exec i s = .next t) : t.status ∈ completionStatuses := by
  rcases exec_cases i s t h with ⟨a, ha, rfl⟩ | ⟨v, n, -, rfl⟩ | ⟨bytes, -, -, -, rfl⟩
  · exact abortStatus_mem_completionStatuses a ha
  · exact List.mem_cons_self
  · exact List.mem_cons_self

theorem exec_resLen (i : Instr) (s t : State) (h : exec i s = .next t) : t.resLen ≠ none := by
  rcases exec_cases i s t h with ⟨a, -, rfl⟩ | ⟨v, n, -, rfl⟩ | ⟨bytes, -, -, -, rfl⟩ <;> simp

/-- A command leaves the host's side alone, and is one step. -/
theorem exec_host_side (i : Instr) (s t : State) (h : exec i s = .next t) :
    t.host = s.host ∧ t.reads = s.reads ∧ t.delay = s.delay ∧ t.events = s.events + 1 := by
  rcases exec_cases i s t h with ⟨a, -, rfl⟩ | ⟨v, n, -, rfl⟩ | ⟨bytes, -, -, -, rfl⟩ <;> simp

/-- Settles O31: an abort, a load and a store each write STATUS and RES_LEN, and only the load writes DATA. -/
theorem registerFrame : Obligations.RegisterFrame :=
  fun i s t h => ⟨exec_reg_frame i s t h, exec_status i s t h, exec_resLen i s t h, exec_host_side i s t h⟩

/-! ### The bytes (20_memory.md R86 to R89) -/

theorem abortStatus_ne_success (a : Abort) : abortStatus a ≠ successStatus := by
  rcases a with e | c
  · cases e <;> decide
  · cases c <;> decide

/-- A command leaves every byte as it was, or it succeeded and stored as many bytes as its region has, in range. -/
theorem exec_mem (i : Instr) (s t : State) (h : exec i s = .next t) :
    t.mem = s.mem ∨ (i ≠ .readWord ∧ t.status = successStatus ∧ inRange s (storeRegion i s) = true ∧
      ∃ bytes : List Byte, bytes.length = (storeRegion i s).len ∧
        t.mem = Memory.writeBytes s.mem (storeRegion i s).ptr bytes) := by
  rcases exec_cases i s t h with ⟨a, -, rfl⟩ | ⟨v, n, -, rfl⟩ | ⟨bytes, hi, hlen, hin, rfl⟩
  · exact .inl rfl
  · exact .inl rfl
  · exact .inr ⟨hi, rfl, hin, bytes, hlen, rfl⟩

/-- A byte outside the region that the command stores into is as before. -/
theorem exec_byte_outside (i : Instr) (s t : State) (h : exec i s = .next t) (a : Nat)
    (ha : a < (storeRegion i s).ptr ∨ (storeRegion i s).ptr + (storeRegion i s).len ≤ a) :
    Memory.read? t.mem a = Memory.read? s.mem a := by
  rcases exec_mem i s t h with hmem | ⟨-, -, -, bytes, hlen, hmem⟩
  · rw [hmem]
  · rw [hmem, read?_writeBytes_outside _ _ _ _ (by rw [hlen]; exact ha)]

/-- Settles O32: only a success of a command other than READ_WORD writes bytes, all of them in its region. -/
theorem memoryFrame : Obligations.MemoryFrame := by
  intro i s t h
  refine ⟨exec_byte_outside i s t h, ?_⟩
  rcases exec_mem i s t h with hmem | ⟨hi, hsuccess, -, -⟩
  · exact ⟨fun _ => hmem, fun _ => hmem⟩
  · exact ⟨fun hfail => absurd (hsuccess.trans successStatus_eq) hfail, fun hread => absurd hread hi⟩

/-- A command that posts success, and has a region to store into, stored it. -/
theorem exec_stored_of_success (i : Instr) (s t : State) (h : exec i s = .next t) (hsuccess : t.status = successStatus)
    (hregion : 0 < (storeRegion i s).len) :
    inRange s (storeRegion i s) = true ∧ ∃ bytes : List Byte, bytes.length = (storeRegion i s).len ∧
      t.mem = Memory.writeBytes s.mem (storeRegion i s).ptr bytes := by
  rcases exec_cases i s t h with ⟨a, -, rfl⟩ | ⟨v, n, rfl, -⟩ | ⟨bytes, -, hlen, hin, rfl⟩
  · exact absurd hsuccess (abortStatus_ne_success a)
  · exact absurd hregion (Nat.lt_irrefl 0)
  · exact ⟨hin, bytes, hlen, rfl⟩

/-- Settles O33: the stored bytes fill a region that is in range. -/
theorem storedBytesAreDefined : Obligations.StoredBytesAreDefined := by
  intro i s t h hstatus a hge hlt
  obtain ⟨hin, bytes, hlen, hmem⟩ :=
    exec_stored_of_success i s t h (hstatus.trans successStatus_eq.symm) (by omega)
  have hbound := (inRange_iff s _).1 hin
  refine ⟨by omega, ?_⟩
  rw [hmem, read?_writeBytes, if_pos ⟨hge, by omega⟩, List.getElem?_eq_getElem (by omega)]
  exact Option.some_ne_none _

/-- Every command that has inputs beside its destination checks that they do not overlap (20_memory.md R89). -/
theorem exec_checks_overlap (i : Instr) (s : State) :
    inputRegions i s = [] ∨ ∃ (checks : List Check) (effect : State), exec i s = runCommand s checks effect ∧
      overlapCheck (storeRegion i s) (inputRegions i s) ∈ checks := by
  cases i with
  | readWord => exact .inl rfl
  | writeWord => exact .inl rfl
  | rngFill => exact .inl rfl
  | _ => exact .inr ⟨_, _, rfl, List.mem_of_getLast? rfl⟩

/-- A command changes no byte, or its destination overlaps none of its inputs. -/
theorem exec_inputs_apart (i : Instr) (s t : State) (h : exec i s = .next t) :
    t.mem = s.mem ∨ ∀ r ∈ inputRegions i s, ¬ overlap (storeRegion i s) r = true := by
  rcases exec_checks_overlap i s with hnone | ⟨checks, effect, hexec, hcheck⟩
  · exact .inr (by simp [hnone])
  · rcases runCommand_cases s checks effect t (hexec ▸ h) with ⟨hpass, -⟩ | ⟨a, -, rfl⟩
    · have hapart : (overlapCheck (storeRegion i s) (inputRegions i s)).1 = true :=
        (firstFailure_eq_none checks).1 hpass _ hcheck
      exact .inr (by simpa [overlapCheck] using hapart)
    · exact .inl rfl

/-- Settles O34: a byte of an input region lies outside a destination that does not overlap it. -/
theorem inputsAreNeverMutated : Obligations.InputsAreNeverMutated := by
  intro i s t h r hr a hge hlt
  rcases exec_inputs_apart i s t h with hmem | hapart
  · rw [hmem]
  · have hdisjoint := hapart r hr
    rw [overlap_iff] at hdisjoint
    exact exec_byte_outside i s t h a (by omega)

end Sys2Proof.Proofs.CommandFrames
end

section
/-! PROOFS. A register that a command does not read has no effect on it (30_encoding.md R126): the operands and the
checks are the same after a write of another register, so the same check decides and the same effect follows. -/

namespace Sys2Proof.Proofs.UnreadRegisters

open Sys2Proof Sys2Proof.Machine Sys2Proof.Claims

section WrittenRegister

variable {s : State} {r : Reg} {v : Option Word32}

/-! ### The operands after a write of another register -/

theorem regValue_setReg_ne {q : Reg} (h : r ≠ q) : regValue (setReg s r v) q = regValue s q := by
  rw [regValue, reg_setReg_ne s r q v h.symm, setReg_events, regValue]

theorem regNat_setReg_ne {q : Reg} (h : r ≠ q) : regNat (setReg s r v) q = regNat s q := by
  rw [regNat, regValue_setReg_ne h, regNat]

theorem configOf_setReg (h : r ≠ .config) : configOf (setReg s r v) = configOf s := regValue_setReg_ne h

@[simp] theorem readRegion_setReg (d : DrawSource) (q : Region) :
    readRegion (setReg s r v) d q = readRegion s d q := by
  simp [readRegion, memRead]

@[simp] theorem randomBytes_setReg (n : Nat) : randomBytes (setReg s r v) n = randomBytes s n := by
  simp [randomBytes]

@[simp] theorem inRange_setReg (q : Region) : inRange (setReg s r v) q = inRange s q := by
  simp [inRange]

theorem srcRegion_setReg (hptr : r ≠ .srcPtr) (hlen : r ≠ .srcLen) : srcRegion (setReg s r v) = srcRegion s := by
  simp only [srcRegion, regNat_setReg_ne hptr, regNat_setReg_ne hlen]

theorem keyRegion_setReg (hptr : r ≠ .keyPtr) (hlen : r ≠ .keyLen) : keyRegion (setReg s r v) = keyRegion s := by
  simp only [keyRegion, regNat_setReg_ne hptr, regNat_setReg_ne hlen]

theorem ivRegion_setReg (hc : r ≠ .config) (hptr : r ≠ .ivPtr) : ivRegion (setReg s r v) = ivRegion s := by
  simp only [ivRegion, regNat_setReg_ne hptr, configOf_setReg hc]

theorem dstRegion_setReg (hptr : r ≠ .dstPtr) (n : Nat) : dstRegion (setReg s r v) n = dstRegion s n := by
  simp only [dstRegion, regNat_setReg_ne hptr]

/-! ### The checks -/

theorem configCheck_setReg (hc : r ≠ .config) : configCheck (setReg s r v) = configCheck s := by
  simp only [configCheck, configOf_setReg hc]

theorem keyCheck_setReg (hc : r ≠ .config) (hlen : r ≠ .keyLen) : keyCheck (setReg s r v) = keyCheck s := by
  simp only [keyCheck, configOf_setReg hc, regNat_setReg_ne hlen]

theorem lengthCheck_setReg (hc : r ≠ .config) (hlen : r ≠ .srcLen) : lengthCheck (setReg s r v) = lengthCheck s := by
  simp only [lengthCheck, configOf_setReg hc, regNat_setReg_ne hlen]

@[simp] theorem inputCheck_setReg (inputs : List Region) :
    inputCheck (setReg s r v) inputs = inputCheck s inputs := by
  simp only [inputCheck, funext (inRange_setReg (s := s) (r := r) (v := v))]

@[simp] theorem destCheck_setReg (dst : Region) : destCheck (setReg s r v) dst = destCheck s dst := by
  simp only [destCheck, inRange_setReg]

theorem decryptSource_setReg (hptr : r ≠ .srcPtr) (hlen : r ≠ .srcLen) :
    decryptSource (setReg s r v) = decryptSource s := by
  rw [decryptSource, srcRegion_setReg hptr hlen, readRegion_setReg, decryptSource]

theorem malformedCheck_setReg (hc : r ≠ .config) (hptr : r ≠ .srcPtr) (hlen : r ≠ .srcLen) :
    malformedCheck (setReg s r v) = malformedCheck s := by
  simp only [malformedCheck, configOf_setReg hc, decryptSource_setReg hptr hlen, regNat_setReg_ne hlen]

/-! ### The completion -/

theorem succeed_setReg : succeed (setReg s r v) = setReg (succeed s) r v := by
  cases r <;> rfl

theorem abort_setReg (h : r ≠ .resLen) (a : Abort) : abort (setReg s r v) a = setReg (abort s a) r v := by
  cases r with
  | resLen => exact absurd rfl h
  | _ => rfl

theorem storeResult_setReg (h : r ≠ .resLen) (dst : Region) (bytes : List Byte) :
    storeResult (setReg s r v) dst bytes = setReg (storeResult s dst bytes) r v := by
  cases r with
  | resLen => exact absurd rfl h
  | _ => rfl

theorem loadResult_setReg (hresLen : r ≠ .resLen) (hdata : r ≠ .data) (x n : Nat) :
    loadResult (setReg s r v) x n = setReg (loadResult s x n) r v := by
  cases r with
  | resLen => exact absurd rfl hresLen
  | data => exact absurd rfl hdata
  | _ => rfl

/-- The same checks and the same effect beside the written register give the same completion beside it. -/
theorem runCommand_setReg (h : r ≠ .resLen) (checks : List Check) (effect t : State)
    (hrun : runCommand s checks effect = .next t) :
    runCommand (setReg s r v) checks (setReg effect r v) = .next (setReg t r v) := by
  rcases runCommand_cases s checks effect t hrun with ⟨hpass, rfl⟩ | ⟨a, hfail, rfl⟩
  · rw [runCommand, hpass, ← succeed_setReg]
  · rw [runCommand, hfail, ← abort_setReg h]

/-! ### The commands -/

/-- The command ends alike before and after the write of the register, but for that register. -/
abbrev RunsAlike (meaning : State → Host.Outcome State Fault Refusal) (s : State) (r : Reg) (v : Option Word32) :
    Prop :=
  ∀ t, meaning s = .next t → meaning (setReg s r v) = .next (setReg t r v)

theorem execReadWord_setReg (hresLen : r ≠ .resLen) (hdata : r ≠ .data) (hc : r ≠ .config) (hptr : r ≠ .srcPtr) :
    RunsAlike execReadWord s r v := by
  intro t h
  rw [← runCommand_setReg hresLen _ _ t h, execReadWord]
  simp only [readWordRegion, configCheck_setReg hc, inputCheck_setReg, readRegion_setReg, configOf_setReg hc,
    regNat_setReg_ne hptr, loadResult_setReg hresLen hdata]

theorem execWriteWord_setReg (hresLen : r ≠ .resLen) (hc : r ≠ .config) (hdst : r ≠ .dstPtr) (hdata : r ≠ .data) :
    RunsAlike execWriteWord s r v := by
  intro t h
  rw [← runCommand_setReg hresLen _ _ t h, execWriteWord]
  simp only [writeWordRegion, configCheck_setReg hc, destCheck_setReg, configOf_setReg hc, dstRegion_setReg hdst,
    regNat_setReg_ne hdata, storeResult_setReg hresLen]

theorem execRngFill_setReg (hresLen : r ≠ .resLen) (hc : r ≠ .config) (hlen : r ≠ .srcLen) (hdst : r ≠ .dstPtr) :
    RunsAlike execRngFill s r v := by
  intro t h
  rw [← runCommand_setReg hresLen _ _ t h, execRngFill]
  simp only [rngDst, configCheck_setReg hc, destCheck_setReg, configOf_setReg hc, dstRegion_setReg hdst,
    regNat_setReg_ne hlen, randomBytes_setReg, storeResult_setReg hresLen]

theorem execDerive_setReg (hresLen : r ≠ .resLen) (hc : r ≠ .config) (hkp : r ≠ .keyPtr) (hkl : r ≠ .keyLen)
    (hiv : r ≠ .ivPtr) (hdst : r ≠ .dstPtr) : RunsAlike execDerive s r v := by
  intro t h
  rw [← runCommand_setReg hresLen _ _ t h, execDerive]
  simp only [deriveDst, deriveOutput, configCheck_setReg hc, keyCheck_setReg hc hkl, inputCheck_setReg,
    destCheck_setReg, configOf_setReg hc, keyRegion_setReg hkp hkl, ivRegion_setReg hc hiv, dstRegion_setReg hdst,
    regNat_setReg_ne hkl, readRegion_setReg, storeResult_setReg hresLen]

section SourceAndKey

variable (hc : r ≠ .config) (hsp : r ≠ .srcPtr) (hsl : r ≠ .srcLen) (hkp : r ≠ .keyPtr) (hkl : r ≠ .keyLen)
include hc hsp hsl hkp hkl

theorem transformInputs_setReg (ivp : Bool) (hiv : ivp = true → r ≠ .ivPtr) :
    transformInputs (setReg s r v) ivp = transformInputs s ivp := by
  cases ivp with
  | false => rw [transformInputs, srcRegion_setReg hsp hsl, keyRegion_setReg hkp hkl, transformInputs]; rfl
  | true =>
    rw [transformInputs, srcRegion_setReg hsp hsl, keyRegion_setReg hkp hkl, ivRegion_setReg hc (hiv rfl),
      transformInputs]

theorem transformOutput_setReg (dec ivp : Bool) (hiv : ivp = true → r ≠ .ivPtr) :
    transformOutput (setReg s r v) dec ivp = transformOutput s dec ivp := by
  have hV : transformIv (setReg s r v) ivp = transformIv s ivp := by
    cases ivp with
    | false => rfl
    | true => simp only [transformIv, ivRegion_setReg hc (hiv rfl), readRegion_setReg]
  simp only [transformOutput, configOf_setReg hc, srcRegion_setReg hsp hsl, keyRegion_setReg hkp hkl, readRegion_setReg,
    hV]

theorem encryptInputs_setReg (hiv : ivInjected (configOf s) = true → r ≠ .ivPtr) :
    encryptInputs (setReg s r v) = encryptInputs s := by
  rw [encryptInputs, configOf_setReg hc]
  exact transformInputs_setReg hc hsp hsl hkp hkl (ivInjected (configOf s)) hiv

theorem encryptOutput_setReg (hiv : ivInjected (configOf s) = true → r ≠ .ivPtr) :
    encryptOutput (setReg s r v) = encryptOutput s := by
  have hV : encryptIv (setReg s r v) = encryptIv s := by
    rw [encryptIv, encryptIv, configOf_setReg hc]
    split
    next hsource => rw [ivRegion_setReg hc (hiv hsource), readRegion_setReg]
    next => rw [randomBytes_setReg]
  simp only [encryptOutput, configOf_setReg hc, srcRegion_setReg hsp hsl, keyRegion_setReg hkp hkl, readRegion_setReg,
    hV]

variable (hresLen : r ≠ .resLen) (hdst : r ≠ .dstPtr)
include hresLen hdst

theorem transformCommand_setReg (dec ivp : Bool) (hiv : ivp = true → r ≠ .ivPtr) :
    RunsAlike (fun s => transformCommand s dec ivp) s r v := by
  intro t h
  rw [← runCommand_setReg hresLen _ _ t h]
  simp only [transformCommand, transformDst, configCheck_setReg hc, keyCheck_setReg hc hkl,
    lengthCheck_setReg hc hsl, inputCheck_setReg, destCheck_setReg,
    transformInputs_setReg hc hsp hsl hkp hkl ivp hiv, dstRegion_setReg hdst, regNat_setReg_ne hsl,
    transformOutput_setReg hc hsp hsl hkp hkl dec ivp hiv, storeResult_setReg hresLen]

theorem execEncrypt_setReg (hiv : ivInjected (configOf s) = true → r ≠ .ivPtr) : RunsAlike execEncrypt s r v := by
  intro t h
  rw [← runCommand_setReg hresLen _ _ t h, execEncrypt]
  simp only [encryptDst, configCheck_setReg hc, keyCheck_setReg hc hkl, inputCheck_setReg, destCheck_setReg,
    encryptInputs_setReg hc hsp hsl hkp hkl hiv, configOf_setReg hc, dstRegion_setReg hdst, regNat_setReg_ne hsl,
    encryptOutput_setReg hc hsp hsl hkp hkl hiv, storeResult_setReg hresLen]

theorem execDecrypt_setReg : RunsAlike execDecrypt s r v := by
  intro t h
  rw [← runCommand_setReg hresLen _ _ t h, execDecrypt]
  simp only [decryptDst, decryptOutput, configCheck_setReg hc, keyCheck_setReg hc hkl, inputCheck_setReg,
    malformedCheck_setReg hc hsp hsl, destCheck_setReg, srcRegion_setReg hsp hsl, keyRegion_setReg hkp hkl,
    configOf_setReg hc, decryptSource_setReg hsp hsl, dstRegion_setReg hdst, regNat_setReg_ne hsl, readRegion_setReg,
    storeResult_setReg hresLen]

end SourceAndKey

end WrittenRegister

/-- RES_LEN is no argument register. -/
theorem ne_resLen_of_mem_argRegs {r : Reg} (h : r ∈ argRegs) : r ≠ .resLen := by
  rintro rfl
  exact absurd h (by decide)

/-- Settles O35: command by command, the registers of its row of the operand table are all that it reads. -/
theorem unreadRegistersHaveNoEffect : Obligations.UnreadRegistersHaveNoEffect := by
  intro i s t c r v hconfig harg hunread hdata h
  have hresLen := ne_resLen_of_mem_argRegs harg
  have hsource : ivInjected (configOf s) = true ↔ (c.extractLsb 9 9).toNat = 1 := by
    rw [configOf_of_some s c hconfig, ivInjected, beq_iff_eq, bits_eq_extractLsb]
  cases i <;> simp only [readsRegs, List.mem_append, List.mem_cons, List.not_mem_nil, not_or, or_false] at hunread
  case readWord =>
    obtain ⟨hc, hsp⟩ := hunread
    exact execReadWord_setReg hresLen (fun hr => hdata ⟨rfl, hr⟩) hc hsp t h
  case writeWord =>
    obtain ⟨hc, hdst, hvalue⟩ := hunread
    exact execWriteWord_setReg hresLen hc hdst hvalue t h
  case transformEnc =>
    obtain ⟨hc, hsp, hsl, hkp, hkl, hdst⟩ := hunread
    exact transformCommand_setReg hc hsp hsl hkp hkl hresLen hdst false false (by simp) t h
  case transformDec =>
    obtain ⟨hc, hsp, hsl, hkp, hkl, hdst⟩ := hunread
    exact transformCommand_setReg hc hsp hsl hkp hkl hresLen hdst true false (by simp) t h
  case transformEncIv =>
    obtain ⟨hc, hsp, hsl, hkp, hkl, hdst, hiv⟩ := hunread
    exact transformCommand_setReg hc hsp hsl hkp hkl hresLen hdst false true (fun _ => hiv) t h
  case transformDecIv =>
    obtain ⟨hc, hsp, hsl, hkp, hkl, hdst, hiv⟩ := hunread
    exact transformCommand_setReg hc hsp hsl hkp hkl hresLen hdst true true (fun _ => hiv) t h
  case derive =>
    obtain ⟨hc, hkp, hkl, hiv, hdst⟩ := hunread
    exact execDerive_setReg hresLen hc hkp hkl hiv hdst t h
  case rngFill =>
    obtain ⟨hc, hsl, hdst⟩ := hunread
    exact execRngFill_setReg hresLen hc hsl hdst t h
  case encrypt =>
    obtain ⟨⟨hc, hsp, hsl, hkp, hkl, hdst⟩, hinjected⟩ := hunread
    have hiv : ivInjected (configOf s) = true → r ≠ .ivPtr := fun h9 => by
      rwa [if_pos (hsource.1 h9), List.mem_singleton] at hinjected
    exact execEncrypt_setReg hc hsp hsl hkp hkl hresLen hdst hiv t h
  case decrypt =>
    obtain ⟨hc, hsp, hsl, hkp, hkl, hdst⟩ := hunread
    exact execDecrypt_setReg hc hsp hsl hkp hkl hresLen hdst t h

end Sys2Proof.Proofs.UnreadRegisters
end

section
/-! PROOFS. The invariant of the device (10_state.md R42, R43, R52; 20_memory.md R80): it holds after reset, every step
of the engine and of the host keeps it, and it says which fields of STATUS exclude each other. -/

namespace Sys2Proof.Proofs.DeviceInvariant

open Sys2Proof Sys2Proof.Machine Sys2Proof.Claims Sys2Proof.Proofs.StateFamily Sys2Proof.Proofs.MemoryFamily
  Sys2Proof.Proofs.ResetFamily Sys2Proof.Proofs.CommandFrames

/-! ### The registers that are defined (10_state.md R52) -/

theorem allDefined_iff (s : State) : allDefined s = true ↔ ∀ r, reg s r ≠ none := by
  simp only [allDefined, List.all_eq_true, ← Option.isSome_iff_ne_none]
  constructor
  · intro h r
    cases r with
    | id => rfl
    | status => rfl
    | bufSize => rfl
    | _ => exact h _ (by decide)
  · intro h r _
    exact h r

/-- A step that changes registers to values only, none of them to undefined, keeps every register defined. -/
theorem allDefined_of_frame {s t : State} (h : allDefined s = true)
    (hframe : ∀ r, reg t r ≠ none ∨ reg t r = reg s r) : allDefined t = true := by
  rw [allDefined_iff] at h ⊢
  intro r
  rcases hframe r with hvalue | hsame
  · exact hvalue
  · rw [hsame]
    exact h r

theorem allDefined_setReg {s : State} (h : allDefined s = true) (r : Reg) (v : Word32) :
    allDefined (setReg s r (some v)) = true := by
  refine allDefined_of_frame h fun q => ?_
  by_cases hq : q = r
  · subst hq
    cases q with
    | id => exact .inr rfl
    | status => exact .inr rfl
    | bufSize => exact .inr rfl
    | _ => exact .inl (Option.some_ne_none v)
  · exact .inr (reg_setReg_ne s r q _ hq)

theorem allDefined_abort {s : State} (h : allDefined s = true) (a : Abort) : allDefined (abort s a) = true := by
  refine allDefined_of_frame h fun r => ?_
  cases r with
  | status => exact .inl (Option.some_ne_none _)
  | resLen => exact .inl (Option.some_ne_none _)
  | _ => exact .inr rfl

theorem allDefined_issue {s : State} (h : allDefined s = true) (v : Word32) : allDefined (issue s v) = true := by
  cases hfault : faulted s with
  | true => rwa [issue_of_faulted s v hfault]
  | false =>
    rw [issue_of_not_faulted s v hfault]
    refine allDefined_of_frame h fun r => ?_
    cases r with
    | status => exact .inl (Option.some_ne_none _)
    | cmd => exact .inl (Option.some_ne_none _)
    | _ => exact .inr rfl

/-- A command leaves no register undefined (10_state.md R52). -/
theorem allDefined_exec {s : State} (h : allDefined s = true) (i : Instr) (t : State) (hexec : exec i s = .next t) :
    allDefined t = true := by
  rcases exec_cases i s t hexec with ⟨a, -, rfl⟩ | ⟨v, n, -, rfl⟩ | ⟨bytes, -, -, -, rfl⟩
  · exact allDefined_abort h a
  · refine allDefined_of_frame h fun r => ?_
    cases r with
    | status => exact .inl (Option.some_ne_none _)
    | resLen => exact .inl (Option.some_ne_none _)
    | data => exact .inl (Option.some_ne_none _)
    | _ => exact .inr rfl
  · refine allDefined_of_frame h fun r => ?_
    cases r with
    | status => exact .inl (Option.some_ne_none _)
    | resLen => exact .inl (Option.some_ne_none _)
    | _ => exact .inr rfl

/-! ### Steps that keep the invariant because they change nothing it speaks of -/

/-- The invariant speaks of the registers and of the buffer only. -/
theorem inv_congr {s t : State} (hs : s.Inv) (hreg : ∀ r, reg t r = reg s r) (hmem : t.mem = s.mem) : t.Inv := by
  have hstatus : t.status = s.status := Option.some.inj (hreg .status)
  have hsize : t.bufSize = s.bufSize := Option.some.inj (hreg .bufSize)
  have hdefined : allDefined s = true → allDefined t = true := fun h => allDefined_of_frame h fun r => .inr (hreg r)
  rw [State.Inv, hstatus, hsize, hmem]
  exact hs.imp_right (And.imp_right (And.imp_right (Or.imp_left hdefined)))

theorem inv_takeLine {s : State} (hs : s.Inv) (rest : List HostOp) : (takeLine s rest).Inv :=
  inv_congr hs (reg_takeLine s rest) (takeLine_mem s rest)

theorem inv_count {s : State} (hs : s.Inv) : (count s).Inv := inv_congr hs (reg_count s) (count_mem s)

theorem inv_answer {s : State} (hs : s.Inv) (a : HostRead) : (answer s a).Inv :=
  inv_congr hs (reg_answer s a) (answer_mem s a)

/-! ### Reset and HazardWrite -/

/-- BUFSIZE is in the range of BUF_BYTES (00_scope.md R10). -/
abbrev SizeInRange (s : State) : Prop := 1 ≤ s.bufSize.toNat ∧ s.bufSize.toNat ≤ 2 ^ 31

theorem sizeInRange_of_inv {s : State} (hs : s.Inv) : SizeInRange s := by
  obtain ⟨-, hsize, -⟩ := hs
  exact hsize

theorem inv_deviceReset {s : State} (hsize : SizeInRange s) : (deviceReset s).Inv :=
  ⟨List.mem_cons_self, hsize, ⟨rfl, rfl⟩, .inl rfl⟩

theorem sizeInRange_reset : SizeInRange State.reset := by
  have hbound := Config.bufBytesLessOne.isLt
  rw [SizeInRange, toNat_reset_bufSize, Config.bufBytes]
  omega

/-- Settles O9: reset leaves an empty buffer and every register defined, and BUF_BYTES is in its range. -/
theorem resetMeetsTheInvariant : Obligations.ResetMeetsTheInvariant := inv_deviceReset sizeInRange_reset

theorem inv_hazardWrite {s : State} (hsize : SizeInRange s) (target : Option Reg) : (hazardWrite s target).Inv := by
  obtain ⟨hstatus, hmem, -⟩ := hazardWrite_effect s target
  refine ⟨?_, by rwa [hazardWrite_bufSize], ?_, .inr hstatus⟩
  · rw [hstatus]
    decide
  · rw [hmem]
    exact ⟨rfl, rfl⟩

/-! ### The engine's step -/

theorem abortStatus_mem_postedStatus (a : Abort) : abortStatus a ∈ postedStatus := by
  rcases a with e | c
  · cases e <;> decide
  · cases c <;> decide

theorem completionStatuses_subset_postedStatus : completionStatuses ⊆ postedStatus := by decide

/-- A busy device has every register defined: HazardWrite leaves it idle. -/
theorem allDefined_of_busy {s : State} (hs : s.Inv) (hbusy : busy s = true) : allDefined s = true := by
  obtain ⟨-, -, -, hdefined | hhazard⟩ := hs
  · exact hdefined
  · rw [busy, hhazard] at hbusy
    exact absurd hbusy (by decide)

theorem inv_abort {s : State} (hs : s.Inv) (hdefined : allDefined s = true) (a : Abort) : (abort s a).Inv := by
  obtain ⟨-, hsize, hmem, -⟩ := hs
  exact ⟨abortStatus_mem_postedStatus a, hsize, hmem, .inl (allDefined_abort hdefined a)⟩

/-- A command stores in range only, so the buffer stays canonical and inside its size. -/
theorem memory_exec {s : State} (i : Instr) (t : State) (h : exec i s = .next t) (hwf : Memory.wf s.mem = true)
    (hwithin : Memory.within s.mem s.bufSize.toNat = true) :
    Memory.wf t.mem = true ∧ Memory.within t.mem s.bufSize.toNat = true := by
  rcases exec_mem i s t h with hmem | ⟨-, -, hin, bytes, hlen, hmem⟩
  · rw [hmem]
    exact ⟨hwf, hwithin⟩
  · have hroom : bytes = [] ∨ (storeRegion i s).ptr + bytes.length ≤ s.bufSize.toNat := by
      rw [← List.length_eq_zero_iff, hlen]
      exact (inRange_iff s _).1 hin
    rw [hmem]
    exact ⟨wf_writeBytes _ _ _ hwf, within_writeBytes _ _ _ _ hwithin hroom⟩

theorem inv_exec {s : State} (hs : s.Inv) (hdefined : allDefined s = true) (i : Instr) (t : State)
    (h : exec i s = .next t) : t.Inv := by
  obtain ⟨-, hsize, ⟨hwf, hwithin⟩, -⟩ := hs
  refine ⟨completionStatuses_subset_postedStatus (exec_status i s t h), ?_, ?_, .inl (allDefined_exec hdefined i t h)⟩
  · rwa [exec_bufSize i s t h]
  · rw [exec_bufSize i s t h]
    exact memory_exec i t h hwf hwithin

/-! ### The host's step -/

theorem busyStatus_mem_postedStatus : busyStatus ∈ postedStatus := by decide

/-- An issue needs STATUS.FAULT = 0, and then every register is defined. -/
theorem inv_issue {s : State} (hs : s.Inv) (v : Word32) : (issue s v).Inv := by
  cases hfault : faulted s with
  | true => rwa [issue_of_faulted s v hfault]
  | false =>
    obtain ⟨-, hsize, hmem, hdefined | hhazard⟩ := hs
    · have hissued := allDefined_issue hdefined v
      rw [issue_of_not_faulted s v hfault] at hissued ⊢
      exact ⟨busyStatus_mem_postedStatus, hsize, hmem, .inl hissued⟩
    · rw [faulted, hhazard] at hfault
      exact absurd hfault (by decide)

theorem inv_setReg {s : State} (hs : s.Inv) (r : Reg) (v : Word32) : (setReg s r (some v)).Inv := by
  rw [State.Inv, setReg_status, setReg_bufSize, setReg_mem]
  exact hs.imp_right (And.imp_right (And.imp_right (Or.imp_left fun h => allDefined_setReg h r v)))

theorem inv_hostWriteReg {s : State} (hs : s.Inv) (o : Nat) (v : Word32) : (hostWriteReg s o v).Inv := by
  rcases hostWriteReg_cases s o v with ⟨-, h⟩ | ⟨-, h | ⟨-, h⟩ | ⟨r, -, -, h⟩⟩
  · rw [h]
    exact inv_hazardWrite (sizeInRange_of_inv hs) _
  · rwa [h]
  · rw [h]
    exact inv_issue hs v
  · rw [h]
    exact inv_setReg hs r v

theorem inv_hostWriteByte {s : State} (hs : s.Inv) (a : Nat) (b : Byte) (ha : a < s.bufSize.toNat) :
    (hostWriteByte s a b).Inv := by
  cases hbusy : busy s with
  | true =>
    rw [hostWriteByte, if_pos hbusy]
    exact inv_hazardWrite (sizeInRange_of_inv hs) none
  | false =>
    obtain ⟨hstatus, hsize, ⟨hwf, hwithin⟩, hdefined⟩ := hs
    rw [hostWriteByte_of_idle s a b hbusy]
    exact ⟨hstatus, hsize, ⟨wf_write _ a b hwf, within_write _ a _ b hwithin ha⟩, hdefined⟩

theorem inv_hostAccess {s : State} (hs : s.Inv) (op : HostOp) (t : State) (h : hostAccess s op = .next t) : t.Inv := by
  rcases hostAccess_cases s t op h with ⟨o, v, -, -, rfl⟩ | ⟨o, -, -, rfl⟩ | ⟨a, b, -, ha, rfl⟩ | ⟨a, -, -, rfl⟩ |
    ⟨-, rfl⟩ | ⟨-, ⟨-, rfl⟩ | ⟨-, rfl⟩⟩
  · exact inv_count (inv_hostWriteReg hs o v)
  · exact inv_count (inv_answer hs _)
  · exact inv_count (inv_hostWriteByte hs a b ((bufOffsetLegal_iff s a).1 ha))
  · exact inv_count (inv_answer hs _)
  · exact inv_count (inv_deviceReset (sizeInRange_of_inv hs))
  · exact inv_congr hs (fun r => by cases r <;> rfl) rfl
  · exact inv_count (inv_answer hs _)

theorem busy_of_engineTurn {s : State} (h : engineTurn s = true) : busy s = true := by
  obtain ⟨hbusy, -⟩ := (Bool.and_eq_true _ _).mp h
  exact hbusy

/-- Settles O10: the engine runs only on a busy device, whose registers are all defined; a host access writes STATUS
only to reset, to issue or to fault. -/
theorem stepKeepsTheInvariant : Obligations.StepKeepsTheInvariant := by
  intro s t hs h
  rcases step_cases s t h with ⟨hturn, hengine⟩ | ⟨-, ⟨-, rfl⟩ | ⟨op, rest, -, haccess⟩⟩
  · have hdefined := allDefined_of_busy hs (busy_of_engineTurn hturn)
    rcases hengine with ⟨i, -, hexec⟩ | ⟨-, rfl⟩
    · exact inv_exec hs hdefined i t hexec
    · exact inv_abort hs hdefined _
  · exact hs
  · exact inv_hostAccess (inv_takeLine hs rest) op t haccess

/-! ### The fields of STATUS (10_state.md R43) -/

/-- The fields of each posted STATUS word. -/
theorem postedStatus_fields : ∀ w ∈ postedStatus,
    (bits w 0 0 = 1 → bits w 1 1 ≠ 1 ∧ bits w 2 2 ≠ 1 ∧ bits w 7 4 = 0 ∧ bits w 11 8 = 0) ∧
    (bits w 2 2 = 1 → bits w 0 0 ≠ 1) ∧ (bits w 11 8 ≠ 0 ↔ bits w 2 2 = 1) ∧ bits w 7 4 ≤ 6 ∧ bits w 11 8 ≤ 2 := by
  intro w hw
  rw [postedStatus] at hw
  fin_cases hw <;> decide

/-- No posted STATUS word has a reserved bit (10_state.md R42). -/
theorem postedStatus_reserved : ∀ w ∈ postedStatus, w.getLsbD 3 = false ∧ w.toNat < 2 ^ 12 := by
  intro w hw
  rw [postedStatus] at hw
  fin_cases hw <;> decide

/-- A word below `2 ^ k` has no bit at `k` or above. -/
theorem getLsbD_of_toNat_lt (w : Word32) (k n : Nat) (hw : w.toNat < 2 ^ k) (hn : k ≤ n) : w.getLsbD n = false :=
  Nat.testBit_lt_two_pow (Nat.lt_of_lt_of_le hw (Nat.pow_le_pow_right (by decide) hn))

/-- Settles O11: every word of the STATUS table has these fields. -/
theorem statusFieldsExclude : Obligations.StatusFieldsExclude := by
  rintro s ⟨hposted, -⟩
  obtain ⟨hbusy, hfault, hcause, hranges⟩ := postedStatus_fields s.status hposted
  obtain ⟨hbit3, hhigh⟩ := postedStatus_reserved s.status hposted
  simp only [busy, done, faulted, err, fcause, beq_iff_eq, beq_eq_false_iff_ne]
  refine ⟨hbusy, hfault, hcause, hranges, ?_⟩
  rintro n (rfl | hn)
  · exact hbit3
  · exact getLsbD_of_toNat_lt s.status 12 n hhigh hn

end Sys2Proof.Proofs.DeviceInvariant
end

section
/-! PROOFS. The host's lines, one by one and in sequences: what is refused (20_memory.md R81, R82), the polling loop and
the byte lines (30_encoding.md R131), what makes an idle device busy (70_reset_and_hazards.md R273) and what ends a busy
period (R279, R283). -/

namespace Sys2Proof.Proofs.HostLines

open Sys2Proof Sys2Proof.Machine Sys2Proof.Claims Sys2Proof.Proofs.StateFamily Sys2Proof.Proofs.MemoryFamily
  Sys2Proof.Proofs.ExceptionsFamily Sys2Proof.Proofs.ResetFamily

/-! ### One line on the host's turn -/

/-- Settles O17: on the host's turn the step is the access, and its refusals do not look at BUSY. -/
theorem refusedWhileBusy : Obligations.RefusedWhileBusy := by
  intro s op rest _ hturn hhost
  rw [step_of_hostLine s op rest hturn hhost]
  exact ⟨hostAccess_refused_register_iff _ op, hostAccess_refused_buffer_iff _ op⟩

/-- The state after one pass of the polling loop. -/
def polled (s : State) : State :=
  { count (answer s (.reg 0x0C s.status)) with host := if busy s then .poll :: s.host else s.host }

theorem hostAccess_poll (s : State) : hostAccess s .poll = .next (polled s) := by
  cases hbusy : busy s with
  | true => rw [hostAccess, polled, if_pos hbusy, if_pos hbusy]; rfl
  | false => rw [hostAccess, polled, hbusy]; rfl

@[simp] theorem reg_polled (s : State) (r : Reg) : reg (polled s) r = reg s r := by
  cases r <;> rfl

theorem busy_eq_getLsbD (s : State) : busy s = s.status.getLsbD 0 := by
  rw [busy, Bool.eq_iff_iff, beq_iff_eq, bits_one_eq_one_iff]

/-- Settles O20: one pass of the loop records STATUS and keeps the line while BUSY is 1. -/
theorem pollReadsStatus : Obligations.PollReadsStatus := by
  intro s rest hturn hhost
  refine ⟨polled (takeLine s rest), ?_, rfl, fun r => by simp, rfl, ?_⟩
  · rw [step_of_hostLine s .poll rest hturn hhost, hostAccess_poll]
  · rw [← busy_eq_getLsbD]
    rfl

/-! ### An idle device waits (R273) -/

/-- Of the accesses to an idle device only a CMD write can leave it busy. -/
theorem cmd_write_of_busy_after (s t : State) (op : HostOp) (hidle : busy s = false) (h : hostAccess s op = .next t)
    (hbusy : busy t = true) : ∃ v, op = .wr 0x08 v := by
  rcases hostAccess_cases s t op h with ⟨o, v, rfl, -, rfl⟩ | ⟨o, -, -, rfl⟩ | ⟨a, b, -, -, rfl⟩ | ⟨a, -, -, rfl⟩ |
    ⟨-, rfl⟩ | ⟨-, ⟨hb, -⟩ | ⟨-, rfl⟩⟩
  · rw [busy_count] at hbusy
    rcases hostWriteReg_cases s o v with ⟨hb, -⟩ | ⟨-, hw | ⟨hcmd, -⟩ | ⟨r, -, -, hw⟩⟩
    · simp [hidle] at hb
    · simp [hw, hidle] at hbusy
    · obtain rfl := regOffset_of_regAt o .cmd hcmd
      exact ⟨v, rfl⟩
    · simp [hw, hidle] at hbusy
  · simp [hidle] at hbusy
  · rw [hostWriteByte_of_idle s a b hidle] at hbusy
    exact absurd hidle (ne_of_eq_of_ne hbusy (by decide))
  · simp [hidle] at hbusy
  · simp at hbusy
  · simp [hidle] at hb
  · simp [hidle] at hbusy

/-- An idle device with no host line left stays as it is (log entry 16). -/
theorem step_of_waiting (s : State) (hidle : busy s = false) (hhost : s.host = []) : step s = .next s := by
  rw [step_of_hostTurn s (engineTurn_of_idle s hidle), hostTurn, hhost]

/-- Settles O25: a step of an idle device is a wait or a host access, and of the accesses only an issue posts BUSY. -/
theorem idleDeviceWaits : Obligations.IdleDeviceWaits := by
  refine ⟨busy_reset, fun s t hidle hstep hbusy => ?_, step_of_waiting⟩
  rcases step_cases_of_idle s t hidle hstep with ⟨-, rfl⟩ | ⟨op, rest, hhost, haccess⟩
  · simp [hidle] at hbusy
  · obtain ⟨v, rfl⟩ := cmd_write_of_busy_after (takeLine s rest) t op hidle haccess hbusy
    exact ⟨v, rest, hhost⟩

/-! ### Byte lines (30_encoding.md R131) -/

/-- A run begins with its first step. -/
theorem run_succ {s t : State} (k : Nat) (h : step s = .next t) : core.run (k + 1) s = core.run k t := by
  simp only [Host.Core.run, core, h]

/-- `sbs` leaves the buffer as one write of the bytes does. -/
theorem run_lineSbs (bs : List Byte) (s : State) (o : Nat) (rest : List HostOp) (hidle : busy s = false)
    (hroom : o + bs.length ≤ s.bufSize.toNat) (hhost : s.host = lineSbs o bs ++ rest) :
    ∃ t, core.run bs.length s = .next t ∧ t.host = rest ∧ t.reads = s.reads ∧ (∀ r, reg t r = reg s r) ∧
      t.mem = Memory.writeBytes s.mem o bs := by
  induction bs generalizing s o with
  | nil => exact ⟨s, rfl, hhost, rfl, fun _ => rfl, rfl⟩
  | cons b bs ih =>
    rw [List.length_cons] at hroom ⊢
    have hstep := step_of_idle_byte_write s o b (lineSbs (o + 1) bs ++ rest) hidle hhost (by omega)
    obtain ⟨t, hrun, hrest, hreads, hreg, hmem⟩ :=
      ih (count { takeLine s (lineSbs (o + 1) bs ++ rest) with mem := Memory.write s.mem o b }) (o + 1) hidle
        (show _ ≤ s.bufSize.toNat by omega) rfl
    refine ⟨t, (run_succ _ hstep).trans hrun, hrest, hreads, fun r => ?_, hmem⟩
    rw [hreg, reg_count, reg_with_mem, reg_takeLine]

theorem lineLbs_succ (o n : Nat) : lineLbs o (n + 1) = .lb o :: lineLbs (o + 1) n := by
  simp only [lineLbs, List.range_succ_eq_map, List.map_cons, List.map_map, Nat.add_zero, List.cons.injEq, true_and]
  refine List.map_congr_left fun t _ => ?_
  simp only [Function.comp, Nat.succ_eq_add_one]
  rw [Nat.add_right_comm, Nat.add_assoc]

/-- The answers of `lbs o, n`, newest first. -/
def byteAnswers (o n : Nat) (bs : List Byte) : List HostRead :=
  ((List.range n).map fun k => HostRead.buf (o + k) (bs.getD k 0#8)).reverse

theorem byteAnswers_cons (o n : Nat) (b : Byte) (bs : List Byte) :
    byteAnswers o (n + 1) (b :: bs) = byteAnswers (o + 1) n bs ++ [.buf o b] := by
  simp only [byteAnswers, List.range_succ_eq_map, List.map_cons, List.map_map, List.reverse_cons]
  congr 2
  refine List.map_congr_left fun t _ => ?_
  simp only [Function.comp, Nat.succ_eq_add_one, List.getD_cons_succ]
  rw [Nat.add_right_comm, Nat.add_assoc]

/-- `lbs` answers the bytes of the region in order; where a byte is defined the answer is that byte. -/
theorem run_lineLbs (n : Nat) (s : State) (o : Nat) (rest : List HostOp) (hidle : busy s = false)
    (hroom : o + n ≤ s.bufSize.toNat) (hhost : s.host = lineLbs o n ++ rest) :
    ∃ t, core.run n s = .next t ∧ t.host = rest ∧ (∀ r, reg t r = reg s r) ∧ t.mem = s.mem ∧
      ∃ bs : List Byte, bs.length = n ∧ (∀ k x, k < n → Memory.read? s.mem (o + k) = some x → bs[k]? = some x) ∧
        t.reads = byteAnswers o n bs ++ s.reads := by
  induction n generalizing s o with
  | zero => exact ⟨s, rfl, hhost, fun _ => rfl, rfl, [], rfl, by simp, rfl⟩
  | succ n ih =>
    rw [lineLbs_succ] at hhost
    have hstep := step_of_idle_byte_read s o (lineLbs (o + 1) n ++ rest) hidle hhost (by omega)
    obtain ⟨t, hrun, hrest, hreg, hmem, bs, hlen, hbytes, hreads⟩ :=
      ih (count (answer (takeLine s (lineLbs (o + 1) n ++ rest)) (.buf o (hostReadByte s o)))) (o + 1) hidle
        (show _ ≤ s.bufSize.toNat by omega) rfl
    refine ⟨t, (run_succ _ hstep).trans hrun, hrest, fun r => by simp [hreg], hmem, hostReadByte s o :: bs,
      by simp [hlen], fun k x hk hx => ?_, ?_⟩
    · cases k with
      | zero => rw [List.getElem?_cons_zero, hostReadByte_of_defined s o x hidle hx]
      | succ k =>
        rw [List.getElem?_cons_succ]
        exact hbytes k x (by omega) (by rw [Nat.add_assoc, Nat.add_comm 1]; exact hx)
    · rw [hreads, byteAnswers_cons, List.append_assoc]
      rfl

/-- Settles O23: the byte lines are runs of single accesses, by induction on the bytes. -/
theorem hostByteLines : Obligations.HostByteLines := by
  intro s o rest hidle
  refine ⟨fun bs hroom hhost => ?_, fun n hroom hhost => run_lineLbs n s o rest hidle hroom hhost⟩
  obtain ⟨t, hrun, hrest, hreads, hreg, hmem⟩ := run_lineSbs bs s o rest hidle hroom hhost
  refine ⟨t, hrun, hrest, hreads, hreg, fun k hk => ?_, fun a ha => ?_⟩
  · rw [hmem, read?_writeBytes_inside _ _ _ _ hk]
  · rw [hmem, read?_writeBytes_outside _ _ _ _ ha]

/-! ### What ends a busy period (R279, R283) -/

/-- An access to a busy device that is no write and no reset leaves it busy, registers and bytes as they were. -/
theorem hostAccess_busy_frame (s t : State) (op : HostOp) (hbusy : busy s = true) (h : hostAccess s op = .next t) :
    (op = .rst ∨ (∃ o v, op = .wr o v) ∨ ∃ a b, op = .sb a b) ∨
      (busy t = true ∧ (∀ r, reg t r = reg s r) ∧ t.mem = s.mem) := by
  rcases hostAccess_cases s t op h with ⟨o, v, hop, -, -⟩ | ⟨o, -, -, rfl⟩ | ⟨a, b, hop, -, -⟩ | ⟨a, -, -, rfl⟩ |
    ⟨hop, -⟩ | ⟨-, ⟨-, rfl⟩ | ⟨-, rfl⟩⟩
  · exact .inl (.inr (.inl ⟨o, v, hop⟩))
  · exact .inr ⟨hbusy, fun r => by simp, rfl⟩
  · exact .inl (.inr (.inr ⟨a, b, hop⟩))
  · exact .inr ⟨hbusy, fun r => by simp, rfl⟩
  · exact .inl (.inl hop)
  · exact .inr ⟨hbusy, fun r => by cases r <;> rfl, rfl⟩
  · exact .inr ⟨hbusy, fun r => by simp, rfl⟩

/-- Settles O56: a step that is not the engine's is a wait, a write, a reset, or an access that changes nothing. -/
theorem onlyTheEngineEndsBusy : Obligations.OnlyTheEngineEndsBusy := by
  intro s t hbusy hturn hstep
  rcases step_cases s t hstep with ⟨hengine, -⟩ | ⟨-, ⟨-, rfl⟩ | ⟨op, rest, hhost, haccess⟩⟩
  · simp [hturn] at hengine
  · exact .inr ⟨hbusy, fun _ => rfl, rfl⟩
  · rcases hostAccess_busy_frame (takeLine s rest) t op hbusy haccess with hop | ⟨hb, hreg, hmem⟩
    · exact .inl ⟨op, rest, hhost, hop⟩
    · exact .inr ⟨hb, fun r => by rw [hreg, reg_takeLine], hmem⟩

/-- A line that only reads is performed on a busy device, which stays busy with its delay and its buffer size; a poll
stays the next line. -/
theorem hostAccess_readOnly_of_busy (s : State) (op : HostOp) (hbusy : busy s = true) (hop : readOnly s op) :
    ∃ t, hostAccess s op = .next t ∧ busy t = true ∧ t.delay = s.delay ∧ t.bufSize = s.bufSize ∧
      (t.host = s.host ∨ t.host = op :: s.host) := by
  cases op with
  | rd o => exact ⟨_, if_pos ((regOffsetLegal_iff o).2 hop), hbusy, rfl, rfl, .inl rfl⟩
  | lb a => exact ⟨_, if_pos ((bufOffsetLegal_iff s a).2 hop), hbusy, rfl, rfl, .inl rfl⟩
  | poll => exact ⟨_, hostAccess_poll s, hbusy, rfl, rfl, .inr (if_pos hbusy)⟩
  | _ => exact hop.elim

theorem readOnly_congr {s t : State} (h : t.bufSize = s.bufSize) (op : HostOp) : readOnly t op ↔ readOnly s op := by
  cases op <;> simp only [readOnly, h]

/-- On the host's turn a busy device that is only read performs one line and counts its delay down. -/
theorem step_of_readOnly (s : State) (hbusy : busy s = true) (hturn : engineTurn s = false)
    (hreads : ∀ op ∈ s.host, readOnly s op) :
    ∃ t, step s = .next t ∧ busy t = true ∧ t.delay + 1 = s.delay ∧ ∀ op ∈ t.host, readOnly t op := by
  obtain ⟨hdelay, hlines⟩ : s.delay ≠ 0 ∧ s.host ≠ [] := by simpa [engineTurn, hbusy] using hturn
  obtain ⟨op, rest, hhost⟩ := List.exists_cons_of_ne_nil hlines
  rw [hhost, List.forall_mem_cons] at hreads
  obtain ⟨hop, hrest⟩ := hreads
  obtain ⟨t, haccess, hb, hd, hsize, hkept⟩ := hostAccess_readOnly_of_busy (takeLine s rest) op hbusy hop
  refine ⟨t, (step_of_hostLine s op rest hturn hhost).trans haccess, hb, ?_, ?_⟩
  · rw [hd, takeLine_delay]
    omega
  · simp only [readOnly_congr hsize]
    rcases hkept with h | h <;> rw [h]
    · exact hrest
    · exact List.forall_mem_cons.2 ⟨hop, hrest⟩

/-- Settles O55: each read counts the delay down, and at delay 0, or with no line left, the engine moves. -/
theorem pendingCommandCompletes : Obligations.PendingCommandCompletes := by
  intro s hbusy hreads
  induction hd : s.delay generalizing s with
  | zero =>
    obtain ⟨t, hstep, hidle, -⟩ := step_of_engineTurn s (engineTurn_of_pending s hbusy (.inl hd))
    exact ⟨1, t, by omega, run_succ 0 hstep, hidle⟩
  | succ d ih =>
    cases hturn : engineTurn s with
    | true =>
      obtain ⟨t, hstep, hidle, -⟩ := step_of_engineTurn s hturn
      exact ⟨1, t, by omega, run_succ 0 hstep, hidle⟩
    | false =>
      obtain ⟨t, hstep, hb, hdelay, hrest⟩ := step_of_readOnly s hbusy hturn hreads
      obtain ⟨k, u, hk, hrun, hidle⟩ := ih t hb hrest (by omega)
      exact ⟨k + 1, u, by omega, (run_succ k hstep).trans hrun, hidle⟩

end Sys2Proof.Proofs.HostLines
end

section
/-! PROOFS. Regions, bytes and words: range and overlap byte by byte (20_memory.md R88, R89), little-endian words
(R90, R93), and the word that WRITE_WORD wrote read back (40_word_codec.md R154). -/

namespace Sys2Proof.Proofs.BytesAndWords

open Sys2Proof Sys2Proof.Machine Sys2Proof.Claims Sys2Proof.Proofs.WordCodecFamily

/-! ### Regions (20_memory.md R88, R89) -/

/-- A region is in range when each of its bytes is one of the buffer; the last byte decides. -/
theorem inRange_iff_forall_byte (s : State) (r : Region) :
    inRange s r = true ↔ ∀ a, r.ptr ≤ a → a < r.ptr + r.len → a < s.bufSize.toNat := by
  rw [inRange_iff]
  constructor
  · intro h a hge hlt
    omega
  · intro h
    by_cases hempty : r.len = 0
    · exact .inl hempty
    · have hlast := h (r.ptr + r.len - 1) (by omega) (by omega)
      omega

/-- Two regions overlap when they share a byte; the higher of the two starts is shared. -/
theorem overlap_iff_exists_byte (r q : Region) :
    overlap r q = true ↔ ∃ a, (r.ptr ≤ a ∧ a < r.ptr + r.len) ∧ (q.ptr ≤ a ∧ a < q.ptr + q.len) := by
  rw [overlap_iff]
  constructor
  · intro h
    exact ⟨max r.ptr q.ptr, by omega, by omega⟩
  · rintro ⟨a, hr, hq⟩
    omega

/-- Settles O43: the bounds of R88 and R89 are what the bytes of the regions say. -/
theorem rangeAndOverlap : Obligations.RangeAndOverlap := ⟨inRange_iff_forall_byte, overlap_iff_exists_byte⟩

/-! ### Little-endian words (00_scope.md R16) -/

/-- `le` as the sum of R16, by induction on the bytes: each later byte weighs `2 ^ 8` more. -/
theorem le_eq_sum (S : List Byte) :
    le S = ((List.range S.length).map fun t => (S.getD t 0#8).toNat * 2 ^ (8 * t)).sum := by
  induction S with
  | nil => rfl
  | cons b bs ih =>
    have hweight (t : Nat) : (bs.getD t 0#8).toNat * 2 ^ (8 * (t + 1)) =
        2 ^ 8 * ((bs.getD t 0#8).toNat * 2 ^ (8 * t)) := by ring
    simp only [le, ih, List.length_cons, List.range_succ_eq_map, List.map_cons, List.map_map, List.sum_cons,
      Function.comp_def, Nat.succ_eq_add_one, List.getD_cons_zero, List.getD_cons_succ, hweight, List.sum_map_mul_left,
      Nat.mul_zero, Nat.pow_zero, Nat.mul_one]

theorem getElem?_bytesLe (v n t : Nat) (h : t < n) :
    (bytesLe v n)[t]? = some (BitVec.ofNat 8 (v / 2 ^ (8 * t) % 256)) := by
  simp [bytesLe, h]

/-- Settles O44: the sum and the bytes of R16, which undo each other. -/
theorem littleEndianWords : Obligations.LittleEndianWords :=
  ⟨le_eq_sum, getElem?_bytesLe, fun v n => ⟨length_bytesLe v n, le_bytesLe v n⟩, bytesLe_le⟩

/-! ### WRITE_WORD, then READ_WORD (40_word_codec.md R154) -/

/-- A WRITE_WORD that succeeded passed both its checks and stored the word. -/
theorem writeWord_of_success {s t : State} {c a v : Word32} (hc : s.config = some c) (ha : s.dstPtr = some a)
    (hv : s.data = some v) (h : exec .writeWord s = .next t) (hstatus : t.status = 0x2#32) :
    (configValid c = true ∧ inside s (a.toNat, wordSize c)) ∧
      t = stored s a.toNat (codecWrite (wordSize c) v.toNat) (wordSize c) := by
  obtain ⟨hpass, hfail⟩ := writeWordResult s c a v hc ha hv
  by_cases hchecks : configValid c = true ∧ inside s (a.toNat, wordSize c)
  · exact ⟨hchecks, Host.Outcome.next.inj (h.symm.trans (hpass hchecks.1 hchecks.2))⟩
  · rw [Host.Outcome.next.inj (h.symm.trans (hfail hchecks))] at hstatus
    have hword : (if configValid c = false then 0x22#32 else 0x106#32 : Word32) = 0x2#32 := hstatus
    split at hword <;> exact absurd hword (by decide)

/-- Settles O45: READ_WORD reads exactly the bytes that WRITE_WORD stored. -/
theorem writtenWordReadsBack : Obligations.WrittenWordReadsBack := by
  intro s t c a v hc ha hv h hstatus
  obtain ⟨⟨hvalid, hin⟩, rfl⟩ := writeWord_of_success hc ha hv h hstatus
  have hread := (readWordResult { stored s a.toNat (codecWrite (wordSize c) v.toNat) (wordSize c) with
    srcPtr := some a } c a hc rfl).1 hvalid hin
  refine ⟨_, hread, rfl, ?_⟩
  rw [memRead_of_defined _ .src a.toNat (wordSize c) (codecWrite (wordSize c) v.toNat) (length_codecWrite ..)
    fun k hk => read?_writeBytes_inside _ _ _ k (by rwa [length_codecWrite]), le_codecWrite]
  rfl

/-! ### The bytes of a written word (20_memory.md R93) -/

/-- Byte `k` of a value is not changed by taking the value modulo more than `k` bytes. -/
theorem byte_of_mod (v k n : Nat) (h : k < n) : v % 2 ^ (8 * n) / 2 ^ (8 * k) % 256 = v / 2 ^ (8 * k) % 256 := by
  have hsplit : 2 ^ (8 * n) = 2 ^ (8 * k) * 2 ^ (8 * (n - k)) := by
    rw [← Nat.pow_add, ← Nat.mul_add, Nat.add_sub_cancel' (Nat.le_of_lt h)]
  have hdvd : 256 ∣ 2 ^ (8 * (n - k)) := by
    have hle : 2 ^ 8 ∣ 2 ^ (8 * (n - k)) := Nat.pow_dvd_pow 2 (by omega)
    exact hle
  rw [hsplit, Nat.mod_mul_right_div_self, Nat.mod_mod_of_dvd _ hdvd]

theorem ofNat_byte_eq_extractLsb' (v : Word32) (k : Nat) :
    BitVec.ofNat 8 (v.toNat / 2 ^ (8 * k) % 256) = v.extractLsb' (8 * k) 8 := by
  apply BitVec.eq_of_toNat_eq
  rw [BitVec.toNat_ofNat, BitVec.extractLsb'_toNat, Nat.shiftRight_eq_div_pow]
  exact Nat.mod_mod _ _

theorem getElem?_codecWrite (v : Word32) (ws k : Nat) (hk : k < ws) :
    (codecWrite ws v.toNat)[k]? = some (v.extractLsb' (8 * k) 8) := by
  rw [codecWrite, radix, getElem?_bytesLe _ _ _ hk, byte_of_mod _ _ _ hk, ofNat_byte_eq_extractLsb']

/-- Settles O46: byte `k` of the stored word is byte `k` of DATA. -/
theorem writtenWordBytes : Obligations.WrittenWordBytes := by
  intro s t c a v hc ha hv h hstatus k hk
  obtain ⟨-, rfl⟩ := writeWord_of_success hc ha hv h hstatus
  rw [← getElem?_codecWrite v (wordSize c) k hk]
  exact read?_writeBytes_inside _ _ _ k (by rwa [length_codecWrite])

end Sys2Proof.Proofs.BytesAndWords
end

section
/-! PROOFS. The transform undone by its inverse (42_modadd_transform.md R188), the derived key (41_iv_deriver.md R171),
and the round trip of ENCRYPT and DECRYPT (43_framing.md R209 to R213). -/

namespace Sys2Proof.Proofs.RoundTrip

open Sys2Proof Sys2Proof.Machine Sys2Proof.Claims Sys2Proof.Proofs.DeriverFamily Sys2Proof.Proofs.TransformFamily
  Sys2Proof.Proofs.FramingFamily Sys2Proof.Proofs.CommandWords Sys2Proof.Proofs.CommandFrames

/-! ### The inverse law (42_modadd_transform.md R188) -/

theorem radix_cast (ws : Nat) : (radix ws : Int) = 2 ^ (8 * ws) := by simp [radix]

theorem transformWord_enc_cast (ws x k v : Nat) :
    (transformWord ws false x k v : Int) = ((x : Int) + k + v) % 2 ^ (8 * ws) := by
  rw [transformWord_enc]
  push_cast
  rfl

/-- One word transformed in one direction and then the other, modulo `R`. -/
theorem transformWord_inverse (ws : Nat) (dec : Bool) (x k v : Nat) (hx : x < radix ws) :
    transformWord ws (!dec) (transformWord ws dec x k v) k v = x := by
  have hR : (0 : Int) < 2 ^ (8 * ws) := by positivity
  have hlt : (x : Int) < 2 ^ (8 * ws) := by rw [← radix_cast]; exact_mod_cast hx
  have hx' : (x : Int) % 2 ^ (8 * ws) = x := Int.emod_eq_of_lt (by positivity) hlt
  apply Int.natCast_inj.1
  cases dec with
  | false =>
    rw [Bool.not_false, transformWord_dec, transformWord_enc_cast, sub_sub, Int.emod_sub_emod]
    refine Eq.trans ?_ hx'
    congr 1
    ring
  | true =>
    rw [Bool.not_true, transformWord_enc_cast, transformWord_dec, add_assoc, Int.emod_add_emod]
    refine Eq.trans ?_ hx'
    congr 1
    ring

/-- Settles O48: the two directions undo each other word by word. -/
theorem transformInverse : Obligations.TransformInverse := by
  intro ws X K V dec _ hX _ _
  have hlen : (transform ws X K V dec).length = X.length := by rw [length_transform, div_mul_of_mod _ _ hX]
  have hback : (transform ws (transform ws X K V dec) K V (!dec)).length = X.length := by
    rw [length_transform, hlen, div_mul_of_mod _ _ hX]
  refine (eq_of_words ws X _ hX hback.symm fun i hi => ?_).symm
  rw [codecRead_transform _ _ _ _ _ _ (hlen.symm ▸ hi), codecRead_transform _ _ _ _ _ _ hi,
    transformWord_inverse _ _ _ _ _ (codecRead_lt ..)]

/-! ### The derived key (41_iv_deriver.md R171) -/

theorem le_eq_zero_of_forall_zero (S : List Byte) (h : ∀ b ∈ S, b = 0#8) : le S = 0 := by
  induction S with
  | nil => rfl
  | cons b bs ih =>
    rw [List.forall_mem_cons] at h
    rw [le, h.1, ih h.2]
    rfl

/-- Every word of an all-zero sequence is 0. -/
theorem codecRead_of_forall_zero (ws : Nat) (S : List Byte) (a : Nat) (h : ∀ b ∈ S, b = 0#8) : codecRead ws S a = 0 :=
  le_eq_zero_of_forall_zero _ fun b hb => h b (List.mem_of_mem_drop (List.mem_of_mem_take hb))

theorem codecRead_deriveKey (ws : Nat) (K V : List Byte) (j : Nat) (hj : j < K.length / ws) :
    codecRead ws (deriveKey ws K V) (j * ws) =
      (codecRead ws K (j * ws) + codecRead ws V (j % (V.length / ws) * ws)) % 2 ^ (8 * ws) :=
  codecRead_transform ws K V none false j hj

theorem length_deriveKey_of_whole (ws : Nat) (K V : List Byte) (h : K.length % ws = 0) :
    (deriveKey ws K V).length = K.length := by
  rw [length_deriveKey, div_mul_of_mod _ _ h]

/-- An all-zero IV adds 0 to every word of the key. -/
theorem deriveKey_of_zero_iv (ws : Nat) (K V : List Byte) (hK : K.length % ws = 0) (hV : ∀ b ∈ V, b = 0#8) :
    deriveKey ws K V = K := by
  refine (eq_of_words ws K _ hK (length_deriveKey_of_whole ws K V hK).symm fun j hj => ?_).symm
  rw [codecRead_deriveKey ws K V j hj, codecRead_of_forall_zero ws V _ hV, Nat.add_zero]
  exact (Nat.mod_eq_of_lt (codecRead_lt ws K _)).symm

/-- Settles O49: the derived key is the transform of the key with the IV as its key. -/
theorem derivedKeyWords : Obligations.DerivedKeyWords := by
  intro ws K V _ hK _
  exact ⟨length_deriveKey_of_whole ws K V hK.2, codecRead_deriveKey ws K V, deriveKey_of_zero_iv ws K V hK.2⟩

/-! ### The body of a frame (43_framing.md R209) -/

theorem goodKey_deriveKey (ws : Nat) (K V : List Byte) (h : goodKey ws K.length) :
    goodKey ws (deriveKey ws K V).length := by
  rwa [length_deriveKey_of_whole ws K V h.2]

/-- A key of at least one word has a number of words to cycle through. -/
theorem div_pos_of_goodKey (ws n : Nat) (h : goodKey ws n) : 0 < n / ws := by
  obtain ⟨hpos, hwhole⟩ := h
  have hn := div_mul_of_mod n ws hwhole
  by_contra hzero
  rw [Nat.eq_zero_of_not_pos hzero] at hn
  omega

/-- Word `i` of the derived key, taken cyclically. -/
theorem cyclicWord_deriveKey (ws : Nat) (K V : List Byte) (h : goodKey ws K.length) (i : Nat) :
    cyclicWord ws (deriveKey ws K V) i =
      (codecRead ws K (i % (K.length / ws) * ws) +
        codecRead ws V (i % (K.length / ws) % (V.length / ws) * ws)) % 2 ^ (8 * ws) := by
  rw [cyclicWord, length_deriveKey_of_whole ws K V h.2]
  exact codecRead_deriveKey ws K V _ (Nat.mod_lt _ (div_pos_of_goodKey ws _ h))

/-- Settles O51: the body word adds the derived key's word, which holds the IV once, and the IV again. -/
theorem encryptBodyWords : Obligations.EncryptBodyWords := by
  intro ws P K V _ hK _ i hi
  rw [codecRead_transform _ _ _ _ _ _ hi, transformWord_enc, cyclicWord_deriveKey ws K V hK i, ivWord, cyclicWord]
  rw [Nat.add_right_comm, Nat.add_mod_mod]
  congr 1
  omega

/-! ### The frame that ENCRYPT writes, read by DECRYPT (43_framing.md R203, R207) -/

section Frame

variable {c : Word32} {P K V : List Byte}

/-- The body of the frame of `P`. -/
def encryptBody (c : Word32) (P K V : List Byte) : List Byte :=
  transform (wordSize c) (pad (wordSize c) P) (deriveKey (wordSize c) K V) (some V) false

theorem encryptFrame_eq (c : Word32) (P K V : List Byte) :
    encryptFrame c P K V = frame (markerLen c) (padCount (wordSize c) P.length) V (encryptBody c P K V) := rfl

theorem markerLen_le_one (c : Word32) : markerLen c ≤ 1 := by
  have h := markerLen_le c
  omega

theorem length_encryptBody (c : Word32) (P K V : List Byte) :
    (encryptBody c P K V).length = P.length + padCount (wordSize c) P.length := by
  rw [encryptBody, length_transform, div_mul_of_mod _ _ (length_pad_mod _ P (wordSize_pos c)), length_pad]

theorem length_encryptFrame (hV : V.length = ivLength c) :
    (encryptFrame c P K V).length = markerLen c + ivLength c + P.length + padCount (wordSize c) P.length := by
  rw [encryptFrame_eq, length_frame _ _ _ _ (markerLen_le_one c), length_encryptBody, hV, Nat.add_assoc _ P.length]

theorem iv_of_encryptFrame (hV : V.length = ivLength c) :
    ((encryptFrame c P K V).drop (markerLen c)).take (ivLength c) = V := by
  rw [encryptFrame_eq, drop_frame _ _ _ _ (markerLen_le_one c), ← hV, List.take_left]

theorem frameBody_encryptFrame (hV : V.length = ivLength c) :
    frameBody c (encryptFrame c P K V) = encryptBody c P K V := by
  rw [frameBody, encryptFrame_eq, ← List.drop_drop, drop_frame _ _ _ _ (markerLen_le_one c), ← hV, List.drop_left]

/-- The marker of the frame is the padding count; without a marker words are bytes, and nothing is padded. -/
theorem frameMarker_encryptFrame (hvalid : configValid c = true) :
    frameMarker c (encryptFrame c P K V) = padCount (wordSize c) P.length := by
  rcases markerLen_le c with hm | hm
  · rw [frameMarker, hm, if_neg (by decide), wordSize_of_no_marker c hvalid hm, padCount, Nat.mod_one]
  · have hws := wordSize_of_valid c hvalid
    have hlt := padCount_lt (wordSize c) P.length (wordSize_pos c)
    rw [frameMarker, if_pos hm, encryptFrame_eq, hm, head_frame_one _ _ _ (by omega)]

theorem goodKey_ivLength (hvalid : configValid c = true) (hV : V.length = ivLength c) :
    goodKey (wordSize c) V.length := by
  have hpos := ivLength_pos c
  exact ⟨by omega, hV ▸ ivLength_words c hvalid⟩

theorem wellFormed_encryptFrame (hvalid : configValid c = true) (hV : V.length = ivLength c) :
    ¬ MalformedFrame c (encryptFrame c P K V) := by
  have hlt := padCount_lt (wordSize c) P.length (wordSize_pos c)
  have hwhole := padCount_completes (wordSize c) P.length (wordSize_pos c)
  rw [MalformedFrame, frameBody_encryptFrame hV, length_encryptFrame hV, length_encryptBody,
    frameMarker_encryptFrame hvalid]
  omega

/-- What DECRYPT stores of a frame is as long as the plaintext. -/
theorem plainLength_encryptFrame (hvalid : configValid c = true) (hV : V.length = ivLength c) :
    (frameBody c (encryptFrame c P K V)).length - frameMarker c (encryptFrame c P K V) = P.length := by
  rw [frameBody_encryptFrame hV, length_encryptBody, frameMarker_encryptFrame hvalid, Nat.add_sub_cancel]

/-- The transform that DECRYPT applies to the body is the inverse of the one that ENCRYPT applied. -/
theorem decryptPadded_encryptFrame (hvalid : configValid c = true) (hV : V.length = ivLength c)
    (hK : goodKey (wordSize c) K.length) : decryptPadded c (encryptFrame c P K V) K = pad (wordSize c) P := by
  rw [decryptPadded_eq, iv_of_encryptFrame hV, frameBody_encryptFrame hV, encryptBody]
  exact transformInverse _ _ _ _ false (wordSize_mem_of_valid c hvalid) (length_pad_mod _ P (wordSize_pos c))
    (goodKey_deriveKey _ K V hK) fun _ hS => Option.some.inj hS ▸ goodKey_ivLength hvalid hV

end Frame

/-! ### A successful ENCRYPT (43_framing.md R206) -/

section Commands

variable {s t : State} {c sp sl kp kl dp : Word32}

/-- The length of the frame of `n` plaintext bytes. -/
def frameLen (c : Word32) (n : Nat) : Nat := markerLen c + ivLength c + n + padCount (wordSize c) n

/-- An ENCRYPT that succeeded passed its checks and stored its frame. -/
theorem encrypt_of_success (hc : s.config = some c) (hsp : s.srcPtr = some sp) (hsl : s.srcLen = some sl)
    (hkp : s.keyPtr = some kp) (hkl : s.keyLen = some kl) (hdp : s.dstPtr = some dp) (h : exec .encrypt s = .next t)
    (hstatus : t.status = 0x2#32) :
    (configValid c = true ∧ goodKey (wordSize c) kl.toNat ∧ inside s (dp.toNat, frameLen c sl.toNat)) ∧
      t = stored s dp.toNat (encryptFrame c (memRead s .src sp.toNat sl.toNat) (memRead s .key kp.toNat kl.toNat)
        (encryptIv s)) (frameLen c sl.toNat) := by
  rcases runCommand_cases _ _ _ _ h with ⟨hpass, rfl⟩ | ⟨a, -, rfl⟩
  · rw [firstFailure_eq_none] at hpass
    have hconfig := (configCheck_passes_iff s c hc).1 (hpass (configCheck s) (by simp))
    have hkey := (keyCheck_passes_iff s c kl hc hkl).1 (hpass (keyCheck s) (by simp))
    have hdst := (destCheck_passes_iff s _).1 (hpass (destCheck s (encryptDst s)) (by simp))
    rw [encryptDst_of_some hc hsl hdp] at hdst ⊢
    refine ⟨⟨hconfig, hkey, hdst⟩, ?_⟩
    rw [encryptOutput, configOf_of_some s c hc, srcRegion_of_some hsp hsl, keyRegion_of_some hkp hkl]
    rfl
  · exact absurd (hstatus.trans successStatus_eq.symm) (abortStatus_ne_success a)

theorem length_encryptIv_of_some (hc : s.config = some c) : (encryptIv s).length = ivLength c := by
  rw [length_encryptIv, configOf_of_some s c hc]

/-- A frame in range is shorter than `2 ^ 32` bytes, so RES_LEN holds its length. -/
theorem toNat_frameLen (n : Nat) (p : Nat) (h : inside s (p, frameLen c n)) :
    (BitVec.ofNat 32 (frameLen c n)).toNat = frameLen c n := by
  have hsize := s.bufSize.isLt
  have hiv := ivLength_pos c
  have hne : frameLen c n ≠ 0 := by
    rw [frameLen]
    omega
  rcases h with hzero | hle
  · exact absurd hzero hne
  · rw [BitVec.toNat_ofNat, Nat.mod_eq_of_lt (by omega)]

/-! ### DECRYPT of a frame (43_framing.md R208, R210) -/

/-- DECRYPT of a frame `S` that is not malformed stores the first bytes of the padded plaintext. -/
theorem exec_decrypt_of_wellFormed {S : List Byte} (hc : s.config = some c) (hsp : s.srcPtr = some sp)
    (hsl : s.srcLen = some sl) (hkp : s.keyPtr = some kp) (hkl : s.keyLen = some kl) (hdp : s.dstPtr = some dp)
    (hS : memRead s .src sp.toNat sl.toNat = S) (hgood : ¬ MalformedFrame c S)
    (h : KeyedChecksHold s c kl [(sp.toNat, sl.toNat), (kp.toNat, kl.toNat)]
      (dp.toNat, (frameBody c S).length - frameMarker c S)) :
    exec .decrypt s = .next (stored s dp.toNat
      ((decryptPadded c S (memRead s .key kp.toNat kl.toNat)).take ((frameBody c S).length - frameMarker c S))
      ((frameBody c S).length - frameMarker c S)) := by
  subst hS
  obtain ⟨hvalid, hkey, hinputs, hdst, hapart⟩ := h
  rw [MalformedFrame, length_memRead] at hgood
  rw [decryptPadded_eq]
  exact (decryptResult s c sp sl kp kl dp hc hsp hsl hkp hkl hdp).1 ⟨hvalid, hkey, hinputs, hgood, hdst, hapart⟩

/-- DECRYPT of a region that holds the frame of `P` under the key it reads stores `P`. -/
theorem exec_decrypt_of_frame {P V : List Byte} (hc : s.config = some c) (hsp : s.srcPtr = some sp)
    (hsl : s.srcLen = some sl) (hkp : s.keyPtr = some kp) (hkl : s.keyLen = some kl) (hdp : s.dstPtr = some dp)
    (hV : V.length = ivLength c)
    (hframe : memRead s .src sp.toNat sl.toNat = encryptFrame c P (memRead s .key kp.toNat kl.toNat) V)
    (h : KeyedChecksHold s c kl [(sp.toNat, sl.toNat), (kp.toNat, kl.toNat)] (dp.toNat, P.length)) :
    exec .decrypt s = .next (stored s dp.toNat P P.length) := by
  have ⟨hvalid, hkey, _⟩ := h
  have hgoodKey : goodKey (wordSize c) (memRead s .key kp.toNat kl.toNat).length := by rwa [length_memRead]
  rw [← plainLength_encryptFrame (K := memRead s .key kp.toNat kl.toNat) hvalid hV] at h
  rw [exec_decrypt_of_wellFormed hc hsp hsl hkp hkl hdp hframe (wellFormed_encryptFrame hvalid hV) h,
    plainLength_encryptFrame hvalid hV, decryptPadded_encryptFrame hvalid hV hgoodKey, take_pad]

/-- Settles O52: the region holds the frame that ENCRYPT stored, byte by byte, and DECRYPT undoes its transform. -/
theorem encryptThenDecrypt : Obligations.EncryptThenDecrypt := by
  intro s t s' c sp sl kp kl dp n sp' kp' dp' hc hsp hsl hkp hkl hdp henc hstatus hn hc' hsp' hsl' hkp' hkl' hdp'
    hsrc hkey hdst hapartSrc hapartKey hbytes hkeyBytes
  obtain ⟨⟨hvalid, hgood, hin⟩, rfl⟩ := encrypt_of_success hc hsp hsl hkp hkl hdp henc hstatus
  have hV := length_encryptIv_of_some (s := s) hc
  have hlen : n.toNat = frameLen c sl.toNat := by
    rw [← Option.some.inj hn, toNat_frameLen _ _ hin]
  have hP : (memRead s .src sp.toNat sl.toNat).length = sl.toNat := length_memRead ..
  have hframe : memRead s' .src sp'.toNat n.toNat = encryptFrame c (memRead s .src sp.toNat sl.toNat)
      (memRead s' .key kp'.toNat kl.toNat) (encryptIv s) := by
    have hF := length_encryptFrame (P := memRead s .src sp.toNat sl.toNat) (K := memRead s .key kp.toNat kl.toNat) hV
    rw [hP, ← frameLen, ← hlen] at hF
    rw [hkeyBytes]
    exact memRead_of_defined s' .src _ _ _ hF fun k hk =>
      (hbytes k hk).trans (read?_writeBytes_inside _ _ _ k (hF.symm ▸ hk))
  have hdec := exec_decrypt_of_frame hc' hsp' hsl' hkp' hkl' hdp' hV hframe (by
    rw [hP]
    exact ⟨hvalid, hgood, List.forall_mem_cons.2 ⟨hsrc, List.forall_mem_singleton.2 hkey⟩, hdst,
      List.forall_mem_cons.2 ⟨hapartSrc, List.forall_mem_singleton.2 hapartKey⟩⟩)
  refine ⟨_, hdec, rfl, ?_, fun j hj => read?_writeBytes_inside _ _ _ j (hP.symm ▸ hj)⟩
  rw [hP, stored, BitVec.ofNat_toNat, BitVec.setWidth_eq]

/-! ### Two ENCRYPTs (43_framing.md R213) -/

/-- Settles O53: with IVSRC = 1 the frame is computed from bytes that are all defined. -/
theorem encryptDeterministicUnderFixedIv : Obligations.EncryptDeterministicUnderFixedIv := by
  intro s t s' t' c sp kp vp dp sp' kp' vp' dp' sl kl P K V hivsrc hc hc' hsl hsl' hkl hkl' hsp hsp' hkp hkp' hvp hvp'
    hdp hdp' ⟨hPlen, hP⟩ ⟨hKlen, hK⟩ ⟨hVlen, hV⟩ h h' hstatus hstatus'
  obtain ⟨-, rfl⟩ := encrypt_of_success hc hsp hsl hkp hkl hdp h hstatus
  obtain ⟨-, rfl⟩ := encrypt_of_success hc' hsp' hsl' hkp' hkl' hdp' h' hstatus'
  refine ⟨rfl, fun j hj => ?_⟩
  have hiv : encryptIv s = V := by
    rw [encryptIv_of_some hc fun _ => hvp, if_pos hivsrc]
    exact memRead_of_defined s .iv _ _ V hVlen fun k hk => (hV k hk).1
  have hiv' : encryptIv s' = V := by
    rw [encryptIv_of_some hc' fun _ => hvp', if_pos hivsrc]
    exact memRead_of_defined s' .iv _ _ V hVlen fun k hk => (hV k hk).2
  have hF := length_encryptFrame (P := P) (K := K) hVlen
  have hj' : j < (encryptFrame c P K V).length := by
    rw [encryptDst_of_some hc hsl hdp] at hj
    rw [hF, hPlen]
    exact hj
  rw [memRead_of_defined s .src _ _ P hPlen fun k hk => (hP k hk).1,
    memRead_of_defined s .key _ _ K hKlen fun k hk => (hK k hk).1,
    memRead_of_defined s' .src _ _ P hPlen fun k hk => (hP k hk).2,
    memRead_of_defined s' .key _ _ K hKlen fun k hk => (hK k hk).2, hiv, hiv']
  exact (read?_writeBytes_inside _ _ _ j hj').trans (read?_writeBytes_inside _ _ _ j hj').symm

end Commands

/-! ### DECRYPT beside its frame (43_framing.md R211) -/

/-- STATUS and RES_LEN are decided by the checks and by the length that the effect posts. -/
theorem runCommand_posts (s s' : State) (checks : List Check) (effect effect' t : State)
    (hres : effect'.resLen = effect.resLen) (h : runCommand s checks effect = .next t) :
    ∃ t', runCommand s' checks effect' = .next t' ∧ t'.status = t.status ∧ t'.resLen = t.resLen := by
  refine ⟨_, rfl, ?_⟩
  rcases runCommand_cases s checks effect t h with ⟨hpass, rfl⟩ | ⟨a, hfail, rfl⟩
  · rw [hpass]
    exact ⟨rfl, hres⟩
  · rw [hfail]
    exact ⟨rfl, rfl⟩

/-- A region whose bytes are the same reads the same, at one event. -/
theorem memRead_congr (s : State) (m : Memory) (d : DrawSource) (p n : Nat)
    (h : ∀ a, p ≤ a → a < p + n → Memory.read? m a = Memory.read? s.mem a) :
    memRead { s with mem := m } d p n = memRead s d p n := by
  refine List.map_congr_left fun k hk => ?_
  have hk := List.mem_range.1 hk
  rw [h (p + k) (by omega) (by omega)]

/-- Settles O54: of the bytes only the frame's enter the checks and the length. -/
theorem decryptCannotTellAWrongKey : Obligations.DecryptCannotTellAWrongKey := by
  intro s t m h hframe
  have hsource : decryptSource { s with mem := m } = decryptSource s := memRead_congr s m .src _ _ hframe
  have hdst : decryptDst { s with mem := m } = decryptDst s := by
    rw [decryptDst, hsource]
    rfl
  have hmalformed : malformedCheck { s with mem := m } = malformedCheck s := by
    rw [malformedCheck, hsource]
    rfl
  change ∃ t', execDecrypt { s with mem := m } = .next t' ∧ _
  rw [execDecrypt, hdst, hmalformed]
  exact runCommand_posts s _ (decryptChecks s [srcRegion s, keyRegion s] (decryptDst s))
    (storeResult s (decryptDst s) (decryptOutput s)) _ t rfl h

end Sys2Proof.Proofs.RoundTrip
end
